-- ==== Sys2Proof/Word.lean ====
section
/-! DEFINITION. The word types of the register window (20_memory.md R60, R64 to R68). -/

namespace Sys2Proof

/-- A 32-bit bus word: every access to the register window moves one (20_memory.md R64, R65). -/
abbrev Word := BitVec 32

/-- One byte lane of a word (20_memory.md R66). -/
abbrev Byte := BitVec 8

end Sys2Proof
end

