-- ==== Sys2Proof/Syntax.lean ====
section
/-! DEFINITION. The command set: one constructor per row of the opcode map (30_encoding.md R82). -/

namespace Sys2Proof

/-- The nine commands. A command has no immediate and no register-number field: its operands are implicit
operand registers (30_encoding.md R81, R89). -/
inductive Instr where
  | nop       -- 40_control.md R100
  | modmul    -- 41_modmul.md R120
  | montmul   -- 41_modmul.md R125
  | tomont    -- 41_modmul.md R130
  | frommont  -- 41_modmul.md R133
  | modexp    -- 42_modexp.md R150
  | gcd       -- 43_gcd_inverse.md R170
  | modinv    -- 43_gcd_inverse.md R172
  | bitlen    -- 44_bitlen.md R190
  deriving DecidableEq, Repr

end Sys2Proof
end

