-- ==== Sys2Proof/WellFormed.lean ====
section
/-! DEFINITION. Well-formedness: of a command, which has no field to check, and of a command word, which has
two (30_encoding.md R80, R82, R84). -/

namespace Sys2Proof

/-- Every command is well-formed: it has no operand field that could be out of range (30_encoding.md R81). -/
def Instr.wf : Instr → Bool
  | .nop      => true
  | .modmul   => true
  | .montmul  => true
  | .tomont   => true
  | .frommont => true
  | .modexp   => true
  | .gcd      => true
  | .modinv   => true
  | .bitlen   => true

/-- Field RSVD, bits [31:4], is 0 (30_encoding.md R80). -/
def CmdWord.reservedClear (w : Word) : Bool := w.extractLsb' 4 28 == 0#28

/-- Field OP, bits [3:0], is one of 0x0 to 0x8 (30_encoding.md R82). -/
def CmdWord.opcodeDefined (w : Word) : Bool := (w.extractLsb' 0 4).toNat ≤ 8

/-- A legal command word; every other word is illegal (30_encoding.md R84). -/
def CmdWord.wf (w : Word) : Bool := CmdWord.reservedClear w && CmdWord.opcodeDefined w

end Sys2Proof
end

