-- ==== Sys2Proof/Decode.lean ====
section
/-! DEFINITION. The decoder of command words, total on all of them (30_encoding.md R83), and after it the
encoder (30_encoding.md R82). -/

namespace Sys2Proof

/-- Why a word or a byte sequence is no command. -/
inductive DecodeError where
  /-- RSVD, bits [31:4], is not 0 (30_encoding.md R84). -/
  | reservedBits
  /-- OP is one of 0x9 to 0xF (30_encoding.md R84). -/
  | reservedOpcode
  /-- Fewer than the four bytes of one command word (30_encoding.md R85). -/
  | truncated
  deriving DecidableEq, Repr

/-- Field OP of a command word (30_encoding.md R80). -/
def opField (w : Word) : BitVec 4 := w.extractLsb' 0 4

/-- Field RSVD of a command word (30_encoding.md R80). -/
def rsvdField (w : Word) : BitVec 28 := w.extractLsb' 4 28

/-- The opcode map of 30_encoding.md R82, from opcode to command. -/
def decodeOp (op : BitVec 4) : Except DecodeError Instr :=
  match op.toNat with
  | 0x0 => .ok .nop
  | 0x1 => .ok .modmul
  | 0x2 => .ok .montmul
  | 0x3 => .ok .tomont
  | 0x4 => .ok .frommont
  | 0x5 => .ok .modexp
  | 0x6 => .ok .gcd
  | 0x7 => .ok .modinv
  | 0x8 => .ok .bitlen
  | _   => .error .reservedOpcode

/-- `decode` of 30_encoding.md R83: RSVD is looked at before OP. -/
def decode (w : Word) : Except DecodeError Instr :=
  if rsvdField w = 0#28 then decodeOp (opField w) else .error .reservedBits

/-- The word whose byte lanes are b0 (lowest) to b3: lane j carries bits [8j+7:8j] (20_memory.md R66). -/
def wordOfLanes (b0 b1 b2 b3 : Byte) : Word := b3 ++ b2 ++ b1 ++ b0

/-- The byte lanes of a word, lane 0 first (20_memory.md R66). -/
def lanesOfWord (w : Word) : List Byte :=
  [w.extractLsb' 0 8, w.extractLsb' 8 8, w.extractLsb' 16 8, w.extractLsb' 24 8]

/-- The command at the front of a byte sequence, and the bytes after it: every command is one 32-bit word
(30_encoding.md R85). Total on any bytes. -/
def decodeBytes : List Byte → Except DecodeError (Instr × List Byte)
  | b0 :: b1 :: b2 :: b3 :: rest =>
    match decode (wordOfLanes b0 b1 b2 b3) with
    | .ok i    => .ok (i, rest)
    | .error e => .error e
  | _ => .error .truncated

/-- The opcode of each command (30_encoding.md R82, column OP). -/
def opcodeOf : Instr → BitVec 4
  | .nop      => 0x0#4
  | .modmul   => 0x1#4
  | .montmul  => 0x2#4
  | .tomont   => 0x3#4
  | .frommont => 0x4#4
  | .modexp   => 0x5#4
  | .gcd      => 0x6#4
  | .modinv   => 0x7#4
  | .bitlen   => 0x8#4

/-- The word of a command: OP in bits [3:0], RSVD 0 (30_encoding.md R80, R82, column word). -/
def encode (i : Instr) : Word := 0#28 ++ opcodeOf i

/-- The bytes of a command, lane 0 first. -/
def encodeBytes (i : Instr) : List Byte := lanesOfWord (encode i)

/-- The command word that the opcode table's numbering gives: the low nbits of w, bits above them 0. -/
def tableWord (nbits w : Nat) : Word := BitVec.ofNat 32 (w % 2 ^ nbits)

/-- The command the decoder reads from the bytes of the table's word. -/
def decodeTableWord (nbits w : Nat) : Option Instr :=
  match decodeBytes (lanesOfWord (tableWord nbits w)) with
  | .ok (i, _) => some i
  | .error _   => none

end Sys2Proof
end

