-- ==== Sys2Proof/Config.lean ====
section
/-! DEFINITION. The block's implementation parameters (00_scope.md R6, R7) and the model's free value
(93_implementation_defined.md I1). -/

namespace Sys2Proof

/-- What an implementation or a platform fixes (93_implementation_defined.md I6, I7). No rule changes a
parameter in a run; State carries one value of it, so that a statement over all states is a statement over
every operand width and every placement. -/
structure Params where
  /-- NW, the number of 32-bit words in an operand register (00_scope.md R6). -/
  nw      : Nat
  /-- BASE, the bus address of offset 0 (20_memory.md R62). -/
  base    : Nat
  /-- IRQ_LINE, the interrupt line that IRQ drives (00_scope.md R7, 60_exceptions.md R210). -/
  irqLine : Nat
  deriving DecidableEq, Repr

/-- OPW, the operand width in bits: NW = OPW / 32 (00_scope.md R6). -/
def Params.opw (p : Params) : Nat := 32 * p.nw

/-- The legal parameters: OPW a multiple of 32 from 32 to 8192 (00_scope.md R6), BASE aligned to 8 KiB
(20_memory.md R62). -/
abbrev Params.Legal (p : Params) : Prop := 1 ≤ p.nw ∧ p.nw ≤ 256 ∧ p.base % 0x2000 = 0

/-- FREE VALUE: the n-th value of draw32() (10_state.md R23, R35; 93_implementation_defined.md I1: "a fresh
32-bit draw per read, under no law"). It has no body, so no proof can know a value of it (log entry 5). -/
opaque Config.freeWord : Nat → Word

end Sys2Proof
end

