-- ==== Sys2Proof/Machine/State.lean ====
section
/-! DEFINITION. The state of the block (10_state.md R36), of the host agent (30_encoding.md R86, R87) and of
their interleaving (20_memory.md R73), and the state after reset (10_state.md R37). -/

namespace Sys2Proof.Machine

/-- Why the model stops with a fault. -/
inductive Fault where
  /-- Raised by `step` in a state whose STATUS.ERRCODE is one of 6 to 15, which no rule produces
  (60_exceptions.md R201, 93_implementation_defined.md I5). Safe: the model stops. -/
  | reservedErrcode
  deriving DecidableEq, Repr

/-- Why the model gives a step no meaning. -/
inductive Refusal where
  /-- An instruction without a meaning yet; no arm of `exec` answers it. Safe: the model stops. -/
  | notModelled (mnemonic : String)
  /-- Raised by a host access that is not 32 bits wide or not at a multiple of 4: "The model refuses the
  access" (20_memory.md R68, 93_implementation_defined.md I2). Safe: the model stops. -/
  | undefinedAccess
  /-- Raised by a host access at a bus address outside the block's 8 KiB window, whose response is the
  platform's (93_implementation_defined.md I10). Safe: the model stops. -/
  | outsideWindow
  deriving DecidableEq, Repr

/-- The outcomes of a command, by the names of the STATUS.ERRCODE codes (60_exceptions.md R201). Codes 6 to 15
are reserved and have no name. -/
inductive ErrCode where
  | ok              -- 0: the command succeeded
  | illegalCmd      -- 1
  | zeroModulus     -- 2
  | evenModulus     -- 3
  | operandRange    -- 4
  | notInvertible   -- 5
  deriving DecidableEq, Repr

/-- The six operand registers (10_state.md R20). -/
inductive Operand where
  | a | b | e | n | r | g
  deriving DecidableEq, Repr

/-- What a word offset of the window selects (20_memory.md R60). -/
inductive Loc where
  | id | param | ctrl | cmd | status
  | operand (x : Operand) (k : Nat)   -- word k of register x
  | reserved
  deriving DecidableEq, Repr

/-- The block's architectural state: exactly the record of 10_state.md R36. The operand registers hold
unsigned integers below 2^OPW (an invariant: `Block.Fits` in Sys2Proof/Safety.lean). -/
structure Block where
  A : Nat
  B : Nat
  E : Nat
  N : Nat
  R : Nat
  G : Nat
  irqEn   : Bool      -- CTRL.IRQ_EN
  cmd     : Word      -- CMD
  busy    : Bool      -- STATUS.BUSY
  done    : Bool      -- STATUS.DONE
  overrun : Bool      -- STATUS.OVERRUN
  errcode : Fin 16    -- STATUS.ERRCODE
  deriving DecidableEq, Repr

/-- The value of every piece of the block's state after a hardware or a soft reset (10_state.md R37). -/
def Block.reset : Block :=
  { A := 0, B := 0, E := 0, N := 0, R := 0, G := 0, irqEn := false, cmd := 0x00000000#32,
    busy := false, done := false, overrun := false, errcode := 0 }

/-- A name that a read of the host binds (30_encoding.md R86). The expansions of R87 bind names of their own, which a
script may also use (log entry 17). -/
inductive Name where
  | var (n : Nat)   -- a programmer's name
  | s               -- the STATUS word that WAIT or WAITOK has read
  | t               -- the value that MOV has read
  | w (k : Nat)     -- w_k, the word k that READ has read
  deriving DecidableEq, Repr

/-- A statement of a host command script (30_encoding.md R86, R87). A statement that takes several accesses carries how far it has come: the next word k, and the value read so far. Written by a
programmer, k and acc are 0. -/
inductive Stmt where
  /-- A bus write at a bus address, of any width in bits (20_memory.md R62, R67, R68). -/
  | busWrite (addr width : Nat) (v : Word)
  /-- A bus read at a bus address, of any width in bits. -/
  | busRead (addr width : Nat) (name : Name)
  /-- `WR off, v` (30_encoding.md R86). -/
  | wr (off : Nat) (v : Word)
  /-- `RD off -> name` (30_encoding.md R86). -/
  | rd (off : Nat) (name : Name)
  /-- A command mnemonic by itself (30_encoding.md R86). -/
  | command (i : Instr)
  /-- `LOAD x, v` (30_encoding.md R87), from word k on. -/
  | load (x : Operand) (v k : Nat)
  /-- `READ x -> name` (30_encoding.md R87), from word k on. -/
  | read (x : Operand) (name : Name) (k acc : Nat)
  /-- `MOV x, y` (30_encoding.md R87), reading y from word k on. -/
  | mov (x y : Operand) (k acc : Nat)
  /-- `WAIT` (30_encoding.md R87): one read of STATUS, bound to s, a step. -/
  | wait
  /-- `WAITOK` (30_encoding.md R87): WAIT, then the assertion on s. -/
  | waitok
  | ack
  | clrovr
  | irqon
  | irqoff
  | sreset
  deriving DecidableEq, Repr

/-- One access of the host to the bus: address and width in bits, and for a write the value. -/
inductive Request where
  | read (addr width : Nat)
  | write (addr width : Nat) (v : Word)
  deriving DecidableEq, Repr

/-- The host agent (00_scope.md R16): what it has still to do and what its reads returned (log entry 4). -/
structure HostAgent where
  script  : List Stmt          -- first statement next
  vars    : List (Name × Nat)  -- name and value, newest first
  aborted : Bool               -- a WAITOK's assertion failed (30_encoding.md R87)
  deriving DecidableEq, Repr

/-- Who moves in a step: the interleaving of 20_memory.md R73 (log entry 3). -/
inductive Turn where
  | host     -- the host's next access
  | engine   -- the engine's completion step (60_exceptions.md R204)
  | reset    -- the platform's reset input (70_reset_and_hazards.md R240)
  deriving DecidableEq, Repr

/-- The machine: the block, its parameters, the host agent, the order of moves still to come, and the number
of unspecified values drawn so far. -/
structure State where
  params : Params
  blk    : Block
  host   : HostAgent
  turns  : List Turn   -- first turn next
  draws  : Nat
  deriving DecidableEq, Repr

/-- What a step, or the meaning of a command, answers. -/
abbrev Result := Host.Outcome State Fault Refusal

/-- The state right after reset of a block with parameters p: the block as 10_state.md R37 says, no host
statement pending (log entries 3 to 6). -/
def State.resetFor (p : Params) : State :=
  { params := p, blk := Block.reset, host := { script := [], vars := [], aborted := false },
    turns := [], draws := 0 }

/-- The state right after reset, OPW = 32, BASE = 0, IRQ_LINE = 0 (DESIGN CHOICE, log entries 1 and 2: the
spec leaves all three OPEN). -/
def State.reset : State := State.resetFor { nw := 1, base := 0, irqLine := 0 }

end Sys2Proof.Machine
end

