-- ==== Sys2Proof/Machine/Update.lean ====
section
/-! DEFINITION. The named updates of State and HostAgent; their field laws stand in Sys2Proof/Laws/State.lean. -/

namespace Sys2Proof.Machine

/-- s with the block b. -/
def State.withBlk (s : State) (b : Block) : State := { s with blk := b }

/-- s with the host agent h. -/
def State.withHost (s : State) (h : HostAgent) : State := { s with host := h }

/-- s after one unspecified value has been drawn. -/
def State.drawn (s : State) : State := { s with draws := s.draws + 1 }

/-- s with its next turn taken off; with no turn listed, s itself. -/
def State.popTurn (s : State) : State := { s with turns := s.turns.tail }

/-- h with the script l. -/
def HostAgent.withScript (h : HostAgent) (l : List Stmt) : HostAgent := { h with script := l }

/-- h with st to do before the rest of its script. -/
def HostAgent.push (h : HostAgent) (st : Stmt) : HostAgent := { h with script := st :: h.script }

/-- h after a read has bound name to v (30_encoding.md R86: `name <- MemRead(off, 4)`). -/
def HostAgent.bind (h : HostAgent) (name : Name) (v : Nat) : HostAgent := { h with vars := (name, v) :: h.vars }

/-- "script aborts" (30_encoding.md R87, WAITOK): nothing of the script is left. -/
def HostAgent.abort (h : HostAgent) : HostAgent := { h with script := [], aborted := true }

end Sys2Proof.Machine
end

