-- ==== Sys2Proof/Machine/Flags.lean ====
section
/-! DEFINITION. STATUS, CTRL and CMD: their layout, what writing them does, and the IRQ output
(10_state.md R26 to R28, R31; 60_exceptions.md R201, R204, R210). -/

namespace Sys2Proof.Machine

/-- The STATUS.ERRCODE of each outcome (60_exceptions.md R201). -/
def ErrCode.code : ErrCode → Fin 16
  | .ok            => 0
  | .illegalCmd    => 1
  | .zeroModulus   => 2
  | .evenModulus   => 3
  | .operandRange  => 4
  | .notInvertible => 5

/-- STATUS.ERR, which always equals (ERRCODE != 0) (10_state.md R27). -/
def Block.err (b : Block) : Bool := b.errcode != 0

/-- The word a read of STATUS returns (10_state.md R27). -/
def Block.statusWord (b : Block) : Word :=
  0#20 ++ BitVec.ofNat 4 b.errcode.val ++ 0#4 ++ BitVec.ofBool b.overrun ++ BitVec.ofBool b.err ++
    BitVec.ofBool b.done ++ BitVec.ofBool b.busy

/-- The word a read of CTRL returns (10_state.md R26). -/
def Block.ctrlWord (b : Block) : Word := 0#31 ++ BitVec.ofBool b.irqEn

/-- The IRQ output: `IRQ = CTRL.IRQ_EN AND STATUS.DONE` (60_exceptions.md R210). -/
def Block.irq (b : Block) : Bool := b.irqEn && b.done

/-- A write dropped because BUSY = 1: it sets OVERRUN and nothing else (10_state.md R22, R28;
60_exceptions.md R205). -/
def Block.dropWrite (b : Block) : Block := { b with overrun := true }

/-- A command word accepted: latched whole, BUSY <- 1, DONE <- 0, ERRCODE <- 0 (10_state.md R28). -/
def Block.acceptCommand (b : Block) (v : Word) : Block :=
  { b with cmd := v, busy := true, done := false, errcode := 0 }

/-- The host's write to CMD (10_state.md R28). -/
def Block.writeCmd (b : Block) (v : Word) : Block :=
  if b.busy = true then b.dropWrite else b.acceptCommand v

/-- The host's write to STATUS: write-1-to-clear DONE and OVERRUN (10_state.md R27). -/
def Block.writeStatus (b : Block) (v : Word) : Block :=
  { b with done := b.done && !v.getLsbD 1, overrun := b.overrun && !v.getLsbD 3 }

/-- The host's write to CTRL: SOFT_RESET, or else IRQ_EN (10_state.md R26; the soft reset is
70_reset_and_hazards.md R242). -/
def Block.writeCtrl (b : Block) (v : Word) : Block :=
  if v.getLsbD 1 = true then Block.reset else { b with irqEn := v.getLsbD 0 }

/-- What every completion writes to STATUS: ERRCODE <- c, BUSY <- 0, DONE <- 1 (60_exceptions.md R204). -/
def Block.commit (b : Block) (c : ErrCode) : Block :=
  { b with errcode := c.code, busy := false, done := true }

end Sys2Proof.Machine
end

