-- ==== Sys2Proof/Machine/Operands.lean ====
section
/-! DEFINITION. The operand registers, whole and word by word (10_state.md R20 to R23; 20_memory.md R63, R66;
30_encoding.md R81). Every read and write of an operand register goes through these. -/

namespace Sys2Proof.Machine

/-- `reg[X]` (00_scope.md R10). -/
def Block.get (b : Block) : Operand → Nat
  | .a => b.A
  | .b => b.B
  | .e => b.E
  | .n => b.N
  | .r => b.R
  | .g => b.G

/-- `reg[X] <- v` (00_scope.md R10). -/
def Block.set (b : Block) (x : Operand) (v : Nat) : Block :=
  match x with
  | .a => { b with A := v }
  | .b => { b with B := v }
  | .e => { b with E := v }
  | .n => { b with N := v }
  | .r => { b with R := v }
  | .g => { b with G := v }

/-- The host may write A, B, E and N; R and G are read only (10_state.md R21). -/
def Operand.hostWritable : Operand → Bool
  | .a | .b | .e | .n => true
  | .r | .g           => false

/-- WIN(X), the offset of word 0 of X (20_memory.md R63). -/
def win : Operand → Nat
  | .a => 0x0400
  | .b => 0x0800
  | .e => 0x0C00
  | .n => 0x1000
  | .r => 0x1400
  | .g => 0x1800

/-- Word k of an operand's value, bits [32k+31:32k] (00_scope.md R15, 20_memory.md R66). -/
def wordOf (v k : Nat) : Word := BitVec.ofNat 32 (v / 2 ^ (32 * k))

/-- v with bits [32k+31:32k] replaced by w (10_state.md R22). -/
def replaceWord (v k : Nat) (w : Word) : Nat :=
  v % 2 ^ (32 * k) + 2 ^ (32 * k) * (w.toNat + 2 ^ 32 * (v / 2 ^ (32 * k + 32)))

/-- Operand assembly (30_encoding.md R81): the sum of word_k * 2^(32k), word 0 first in the list. -/
def assemble : List Word → Nat
  | []      => 0
  | w :: ws => w.toNat + 2 ^ 32 * assemble ws

/-- The NW words of an operand's value, word 0 first. -/
def wordsOf (nw v : Nat) : List Word := (List.range nw).map (wordOf v)

/-- The host's read of word k of X (10_state.md R23). `none` is an unspecified value, `draw32()`. -/
def Block.readOperand (b : Block) (nw : Nat) (x : Operand) (k : Nat) : Option Word :=
  if nw ≤ k then some 0#32
  else if x.hostWritable = false ∧ b.busy = true then none
  else some (wordOf (b.get x) k)

/-- The host's write of word k of X (10_state.md R22): BUSY is looked at before k, and a write to R or G has no
effect in any state. -/
def Block.writeOperand (b : Block) (nw : Nat) (x : Operand) (k : Nat) (v : Word) : Block :=
  if x.hostWritable = false then b
  else if b.busy = true then { b with overrun := true }
  else if nw ≤ k then b
  else b.set x (replaceWord (b.get x) k v)

end Sys2Proof.Machine
end

