-- ==== Sys2Proof/Machine/Ops.lean ====
section
/-! DEFINITION. The shared operations of the commands: exact arithmetic (00_scope.md R9), the reference
datapaths (41_modmul.md R126, 42_modexp.md R151, 43_gcd_inverse.md R171), and how a command ends, with a result
or with an error (60_exceptions.md R203, R204). -/

namespace Sys2Proof.Machine

/-- bitlen(x): the least k with x < 2^k; bitlen(0) = 0 (00_scope.md R9, 44_bitlen.md R190). -/
def bitlen (x : Nat) : Nat := if x = 0 then 0 else x.log2 + 1

/-- (a * b) mod m, the exact product reduced (41_modmul.md R120). -/
def mulMod (a b m : Nat) : Nat := a * b % m

/-- The rest of the square-and-multiply loop over the bits i-1 down to 0 of k, from the value x
(42_modexp.md R151). -/
def powLoop (b k m : Nat) : Nat → Nat → Nat
  | 0,     x => x
  | i + 1, x => powLoop b k m i (if k.testBit i then x * x % m * b % m else x * x % m)

/-- a^k mod m by exponentiation by squaring, left to right: `modexp_ref` (42_modexp.md R151), whose result is
rule R150's. -/
def powMod (a k m : Nat) : Nat := powLoop (a % m) k m (bitlen k) (1 % m)

/-- The extended Euclid loop on (r0, r1) and the signed coefficients (s0, s1) (43_gcd_inverse.md R171), with fuel:
the product r0 * r1 at least halves in each round. -/
def xgcdLoop : Nat → Nat → Nat → Int → Int → Nat × Int
  | 0,        r0, _,  s0, _  => (r0, s0)
  | fuel + 1, r0, r1, s0, s1 =>
    if r1 = 0 then (r0, s0)
    else xgcdLoop fuel r1 (r0 % r1) s1 (s0 - (r0 / r1 : Nat) * s1)

/-- `xgcd_inv` (43_gcd_inverse.md R171): gcd(a, m), and the coefficient of a normalised into [0, m). -/
def xgcdInv (a m : Nat) : Nat × Nat :=
  let p := xgcdLoop (2 * bitlen m + 1) m (a % m) 0 1
  (p.1, (p.2 % (m : Int)).toNat)

/-- inv(a, m) for m >= 1 and gcd(a, m) = 1: the x below m with (a * x) mod m = 1 mod m (00_scope.md R9). -/
def inv (a m : Nat) : Nat := (xgcdInv a m).2

/-- (a * b * 2^-OPW) mod m for odd m (41_modmul.md R125). -/
def montMul (opw a b m : Nat) : Nat := a * b * inv (2 ^ opw % m) m % m

/-- One round of the bit-serial radix-2 Montgomery datapath (41_modmul.md R126). -/
def montRound (a b m i t : Nat) : Nat :=
  let t1 := t + (if a.testBit i then b else 0)
  (if t1 % 2 = 1 then t1 + m else t1) / 2

/-- The accumulator t after the rounds 0 to n-1 (41_modmul.md R126). -/
def montAcc (a b m : Nat) : Nat → Nat
  | 0     => 0
  | n + 1 => montRound a b m n (montAcc a b m n)

/-- The conditional subtraction after the last round (41_modmul.md R126). -/
def reduceOnce (m t : Nat) : Nat := if m ≤ t then t - m else t

/-- `montmul_r2` (41_modmul.md R126): the reference datapath of MONTMUL. -/
def montMulR2 (opw a b m : Nat) : Nat := reduceOnce m (montAcc a b m opw)

/-- s after `reg[R] <- v`. -/
def State.setR (s : State) (v : Nat) : State := s.withBlk (s.blk.set .r v)

/-- s after `reg[G] <- v`. -/
def State.setG (s : State) (v : Nat) : State := s.withBlk (s.blk.set .g v)

/-- A command ends without an error: code = 0 (40_control.md; 60_exceptions.md R204). -/
def complete (s : State) : Result := .next (s.withBlk (s.blk.commit .ok))

/-- `raise Error(c)`: the command ends with ERRCODE = c, and of what it computed only the writes already in s
are made (60_exceptions.md R203). The block never traps (R200, R213): this takes the place of taking an
exception, and `acknowledge` that of the return. -/
def raiseError (c : ErrCode) (s : State) : Result := .next (s.withBlk (s.blk.commit c))

/-- The host's acknowledgement of a completion: a write of 1 to STATUS bit 1 (60_exceptions.md R214). -/
def acknowledge (b : Block) : Block := b.writeStatus 0x00000002#32

/-- The level of interrupt line l: the block drives line IRQ_LINE with IRQ and no other (60_exceptions.md
R210). -/
def State.irqLevel (s : State) (l : Nat) : Bool := l == s.params.irqLine && s.blk.irq

end Sys2Proof.Machine
end

