-- ==== Sys2Proof/Machine/BitLen.lean ====
section
/-! DEFINITION. The bit-length query (44_bitlen.md). -/

namespace Sys2Proof.Machine

/-- BITLEN (44_bitlen.md R190). The result is at most OPW, so it fits in R. -/
def execBitlen (s : State) : Result := complete (s.setR (bitlen s.blk.A))

end Sys2Proof.Machine
end

