-- ==== Sys2Proof/Machine/Control.lean ====
section
/-! DEFINITION. NOP and illegal command words (40_control.md). -/

namespace Sys2Proof.Machine

/-- NOP: nothing but its completion (40_control.md R100). -/
def execNop (s : State) : Result := complete s

/-- An illegal command word: ILLEGAL_CMD, before any operand is inspected (40_control.md R101). -/
def execIllegal (s : State) : Result := raiseError .illegalCmd s

end Sys2Proof.Machine
end

