-- ==== Sys2Proof/Machine/Euclid.lean ====
section
/-! DEFINITION. The extended Euclidean engine: GCD and MODINV (43_gcd_inverse.md). -/

namespace Sys2Proof.Machine

/-- GCD: the same value to R and G; gcd(0, 0) = 0 (43_gcd_inverse.md R170). -/
def execGcd (s : State) : Result :=
  complete ((s.setR (Nat.gcd s.blk.A s.blk.B)).setG (Nat.gcd s.blk.A s.blk.B))

/-- MODINV: the write of G survives NOT_INVERTIBLE (43_gcd_inverse.md R172). -/
def execModinv (s : State) : Result :=
  if s.blk.N = 0 then raiseError .zeroModulus s
  else if Nat.gcd s.blk.A s.blk.N ≠ 1 then raiseError .notInvertible (s.setG (Nat.gcd s.blk.A s.blk.N))
  else complete ((s.setG (Nat.gcd s.blk.A s.blk.N)).setR (inv (s.blk.A % s.blk.N) s.blk.N))

end Sys2Proof.Machine
end

