-- ==== Sys2Proof/Machine/ModExp.lean ====
section
/-! DEFINITION. Modular exponentiation (42_modexp.md). -/

namespace Sys2Proof.Machine

/-- MODEXP, for every modulus of at least 1, odd or even (42_modexp.md R150; 90_conflicts.md C1). -/
def execModexp (s : State) : Result :=
  if s.blk.N = 0 then raiseError .zeroModulus s
  else complete (s.setR (powMod s.blk.A s.blk.E s.blk.N))

end Sys2Proof.Machine
end

