-- ==== Sys2Proof/Machine/ModMul.lean ====
section
/-! DEFINITION. Modular and Montgomery multiplication (41_modmul.md). The checks stand in the order of
60_exceptions.md R202. -/

namespace Sys2Proof.Machine

/-- MODMUL (41_modmul.md R120). -/
def execModmul (s : State) : Result :=
  if s.blk.N = 0 then raiseError .zeroModulus s
  else complete (s.setR (mulMod s.blk.A s.blk.B s.blk.N))

/-- MONTMUL (41_modmul.md R125). -/
def execMontmul (s : State) : Result :=
  if s.blk.N = 0 then raiseError .zeroModulus s
  else if s.blk.N % 2 = 0 then raiseError .evenModulus s
  else if s.blk.N ≤ s.blk.A ∨ s.blk.N ≤ s.blk.B then raiseError .operandRange s
  else complete (s.setR (montMul s.params.opw s.blk.A s.blk.B s.blk.N))

/-- TOMONT (41_modmul.md R130). -/
def execTomont (s : State) : Result :=
  if s.blk.N = 0 then raiseError .zeroModulus s
  else if s.blk.N % 2 = 0 then raiseError .evenModulus s
  else complete (s.setR (mulMod s.blk.A (2 ^ s.params.opw) s.blk.N))

/-- FROMMONT (41_modmul.md R133). B is not read. -/
def execFrommont (s : State) : Result :=
  if s.blk.N = 0 then raiseError .zeroModulus s
  else if s.blk.N % 2 = 0 then raiseError .evenModulus s
  else if s.blk.N ≤ s.blk.A then raiseError .operandRange s
  else complete (s.setR (montMul s.params.opw s.blk.A 1 s.blk.N))

end Sys2Proof.Machine
end

