-- ==== Sys2Proof/Machine/Dispatch.lean ====
section
/-! DEFINITION. `exec` of 60_exceptions.md R204: one arm per command (30_encoding.md R82), each one direct call
of its meaning. A meaning is the engine's whole completion step for its command. -/

namespace Sys2Proof.Machine

def exec (i : Instr) (s : State) : Host.Outcome State Fault Refusal :=
  match i with
  | .nop => Sys2Proof.Machine.execNop s
  | .modmul => Sys2Proof.Machine.execModmul s
  | .montmul => Sys2Proof.Machine.execMontmul s
  | .tomont => Sys2Proof.Machine.execTomont s
  | .frommont => Sys2Proof.Machine.execFrommont s
  | .modexp => Sys2Proof.Machine.execModexp s
  | .gcd => Sys2Proof.Machine.execGcd s
  | .modinv => Sys2Proof.Machine.execModinv s
  | .bitlen => Sys2Proof.Machine.execBitlen s

end Sys2Proof.Machine
end

