-- ==== Sys2Proof/Machine/Window.lean ====
section
/-! DEFINITION. The register window as the host reads and writes it (20_memory.md R60 to R70). -/

namespace Sys2Proof.Machine

/-- ID, at offset 0x000 (10_state.md R24). -/
def idWord : Word := 0x4D580001#32

/-- PARAM, at offset 0x004: bits [15:0] are NW, the rest 0 (10_state.md R25). -/
def paramWord (nw : Nat) : Word := 0#16 ++ BitVec.ofNat 16 nw

/-- The map of 20_memory.md R60, for an offset that is a multiple of 4. Bits [12:2] select the word (R61). -/
def locate (off : Nat) : Loc :=
  if off = 0x000 then .id
  else if off = 0x004 then .param
  else if off = 0x008 then .ctrl
  else if off = 0x00C then .cmd
  else if off = 0x010 then .status
  else match off / 0x400 with
    | 1 => .operand .a (off % 0x400 / 4)
    | 2 => .operand .b (off % 0x400 / 4)
    | 3 => .operand .e (off % 0x400 / 4)
    | 4 => .operand .n (off % 0x400 / 4)
    | 5 => .operand .r (off % 0x400 / 4)
    | 6 => .operand .g (off % 0x400 / 4)
    | _ => .reserved

/-- `MemRead(off, 4)` (20_memory.md R64). `none` is an unspecified value (10_state.md R35). -/
def Block.windowRead (b : Block) (nw off : Nat) : Option Word :=
  match locate off with
  | .id          => some idWord
  | .param       => some (paramWord nw)
  | .ctrl        => some b.ctrlWord
  | .cmd         => some b.cmd
  | .status      => some b.statusWord
  | .operand x k => b.readOperand nw x k
  | .reserved    => some 0#32

/-- `MemWrite(off, 4, v)` (20_memory.md R65). -/
def Block.windowWrite (b : Block) (nw off : Nat) (v : Word) : Block :=
  match locate off with
  | .id          => b
  | .param       => b
  | .ctrl        => b.writeCtrl v
  | .cmd         => b.writeCmd v
  | .status      => b.writeStatus v
  | .operand x k => b.writeOperand nw x k v
  | .reserved    => b

/-- `MemRead` in a machine state: the value, and the state after it. An unspecified value is the next free
value; nothing else changes (20_memory.md R70; log entry 5). -/
def memRead (s : State) (off : Nat) : Word × State :=
  match s.blk.windowRead s.params.nw off with
  | some v => (v, s)
  | none   => (Config.freeWord s.draws, s.drawn)

/-- `MemWrite` in a machine state. -/
def memWrite (s : State) (off : Nat) (v : Word) : State :=
  s.withBlk (s.blk.windowWrite s.params.nw off v)

/-- Why an access of this bus address and width has no step, if it has none: outside the window the platform
answers (93_implementation_defined.md I10); inside it the access must be 32 bits wide and at a multiple of 4
(20_memory.md R68). -/
def accessProblem (p : Params) (addr width : Nat) : Option Refusal :=
  if addr < p.base ∨ p.base + 0x2000 ≤ addr then some .outsideWindow
  else if width ≠ 32 ∨ (addr - p.base) % 4 ≠ 0 then some .undefinedAccess
  else none

/-- One access of the host at a bus address, BASE + off reaching offset off (20_memory.md R62): the value read
(for a write, 0, which nothing looks at) and the state after it. -/
def busAccess (s : State) : Request → Except Refusal (Word × State)
  | .read addr width =>
    match accessProblem s.params addr width with
    | some r => .error r
    | none   => .ok (memRead s (addr - s.params.base))
  | .write addr width v =>
    match accessProblem s.params addr width with
    | some r => .error r
    | none   => .ok (0#32, memWrite s (addr - s.params.base) v)

end Sys2Proof.Machine
end

