-- ==== Sys2Proof/Machine/Script.lean ====
section
/-! DEFINITION. The host agent: the statements of a command script, one bus access a step (30_encoding.md R86,
R87; log entry 4). -/

namespace Sys2Proof.Machine

/-- The bus access that a statement makes next (30_encoding.md R86, and the expansions of R87). -/
def Stmt.request (p : Params) : Stmt → Request
  | .busWrite addr width v => .write addr width v
  | .busRead addr width _  => .read addr width
  | .wr off v              => .write (p.base + off) 32 v
  | .rd off _              => .read (p.base + off) 32
  | .command i             => .write (p.base + 0x00C) 32 (encode i)
  | .load x v k            => .write (p.base + (win x + 4 * k)) 32 (wordOf v k)
  | .read x _ k _          => .read (p.base + (win x + 4 * k)) 32
  | .mov _ y k _           => .read (p.base + (win y + 4 * k)) 32
  | .wait                  => .read (p.base + 0x010) 32
  | .waitok                => .read (p.base + 0x010) 32
  | .ack                   => .write (p.base + 0x010) 32 0x00000002#32
  | .clrovr                => .write (p.base + 0x010) 32 0x00000008#32
  | .irqon                 => .write (p.base + 0x008) 32 0x00000001#32
  | .irqoff                => .write (p.base + 0x008) 32 0x00000000#32
  | .sreset                => .write (p.base + 0x008) 32 0x00000002#32

/-- The host after the statement's access has answered v: h is the host with the statement taken off its script
(30_encoding.md R86, R87). Each read binds the name its expansion gives it. LOAD, READ and MOV go on with word k + 1
while k + 1 < NW; READ then binds its own name to the whole value, and MOV binds t to it before its LOAD. WAIT reads
STATUS into s until BUSY, s[0], is 0; WAITOK then asserts ERRCODE, s[11:8], to be 0. -/
def Stmt.resume (nw : Nat) (v : Word) (h : HostAgent) : Stmt → HostAgent
  | .busRead _ _ name    => h.bind name v.toNat
  | .rd _ name           => h.bind name v.toNat
  | .load x val k        => if k + 1 < nw then h.push (.load x val (k + 1)) else h
  | .read x name k acc   =>
    if k + 1 < nw then (h.bind (.w k) v.toNat).push (.read x name (k + 1) (acc + v.toNat * 2 ^ (32 * k)))
    else (h.bind (.w k) v.toNat).bind name (acc + v.toNat * 2 ^ (32 * k))
  | .mov x y k acc       =>
    if k + 1 < nw then (h.bind (.w k) v.toNat).push (.mov x y (k + 1) (acc + v.toNat * 2 ^ (32 * k)))
    else ((h.bind (.w k) v.toNat).bind .t (acc + v.toNat * 2 ^ (32 * k))).push
      (.load x (acc + v.toNat * 2 ^ (32 * k)) 0)
  | .wait                => if v.getLsbD 0 then (h.bind .s v.toNat).push .wait else h.bind .s v.toNat
  | .waitok              =>
    if v.getLsbD 0 then (h.bind .s v.toNat).push .waitok
    else if v.extractLsb' 8 4 = 0#4 then h.bind .s v.toNat
    else (h.bind .s v.toNat).abort
  | .busWrite _ _ _      => h
  | .wr _ _              => h
  | .command _           => h
  | .ack                 => h
  | .clrovr              => h
  | .irqon               => h
  | .irqoff              => h
  | .sreset              => h

/-- The host's step: the next access of its script. A script that has ended does nothing (70_reset_and_hazards.md
R253); an undefined access gets no step (20_memory.md R68). -/
def hostStep (s : State) : Result :=
  match s.host.script with
  | [] => .next s
  | st :: rest =>
    match busAccess s (st.request s.params) with
    | .error r     => .refused r
    | .ok (v, s') => .next (s'.withHost (st.resume s.params.nw v (s'.host.withScript rest)))

/-- The preconditions R87 puts on a statement as written, other than BUSY = 0, and the offsets for which R64 and
R65 define an access. -/
def Stmt.wf (p : Params) : Stmt → Bool
  | .busWrite addr width _ => (accessProblem p addr width).isNone
  | .busRead addr width _  => (accessProblem p addr width).isNone
  | .wr off _              => off % 4 == 0 && decide (off < 0x2000)
  | .rd off _              => off % 4 == 0 && decide (off < 0x2000)
  | .command i             => i.wf
  | .load x v k            => x.hostWritable && decide (v < 2 ^ p.opw) && k == 0
  | .read _ _ k acc        => k == 0 && acc == 0
  | .mov x _ k acc         => x.hostWritable && k == 0 && acc == 0
  | .wait                  => true
  | .waitok                => true
  | .ack                   => true
  | .clrovr                => true
  | .irqon                 => true
  | .irqoff                => true
  | .sreset                => true

/-- The bus operations a statement expands to, in order (30_encoding.md R87). MOV X, Y is READ Y -> t, then
LOAD X, t, so its writes depend on the value t that its reads return. WAIT and WAITOK are loops of one read,
which is shown once. -/
def Stmt.expansion (p : Params) (t : Nat) : Stmt → List Request
  | .load x v _   => (List.range p.nw).map fun k => .write (p.base + (win x + 4 * k)) 32 (wordOf v k)
  | .read x _ _ _ => (List.range p.nw).map fun k => .read (p.base + (win x + 4 * k)) 32
  | .mov x y _ _  =>
    ((List.range p.nw).map fun k => .read (p.base + (win y + 4 * k)) 32) ++
      (List.range p.nw).map fun k => .write (p.base + (win x + 4 * k)) 32 (wordOf t k)
  | st            => [st.request p]

/-- The encoding of a script whose i-th statement, if it is a MOV, moves the i-th value given
(30_encoding.md R88). -/
def scriptEncoding (p : Params) (script : List (Stmt × Nat)) : List Request :=
  script.flatMap fun q => q.1.expansion p q.2

end Sys2Proof.Machine
end

