-- ==== Sys2Proof/Machine/Agents.lean ====
section
/-! DEFINITION. The engine's step, the reset input, and which agent moves (00_scope.md R16, 20_memory.md R73,
60_exceptions.md R204, 70_reset_and_hazards.md R240). Sys2Proof/Machine/Step.lean only calls these. -/

namespace Sys2Proof.Machine

/-- The completion step (60_exceptions.md R204): enabled exactly when BUSY = 1; it decodes the latched CMD word
(30_encoding.md R83). Not enabled, it does nothing. -/
def engineStep (s : State) : Result :=
  if s.blk.busy = true then
    match decode s.blk.cmd with
    | .ok i    => exec i s
    | .error _ => execIllegal s
  else .next s

/-- Hardware reset: the block's state as 10_state.md R37 says; a command in flight is abandoned
(70_reset_and_hazards.md R240). -/
def hardwareReset (s : State) : State := s.withBlk Block.reset

/-- The agent that moves next: the one the list of turns names; when the list is used up, the engine while a
command is in flight, else the host (log entry 3). -/
def agentToMove (s : State) : Turn :=
  match s.turns with
  | t :: _ => t
  | []     => if s.blk.busy = true then .engine else .host

/-- One step of the machine. A state that shows a reserved ERRCODE is a fault (93_implementation_defined.md
I5). -/
def runTurn (s : State) : Result :=
  if 5 < s.blk.errcode.val then .fault .reservedErrcode
  else match agentToMove s with
    | .host   => hostStep s.popTurn
    | .engine => engineStep s.popTurn
    | .reset  => .next (hardwareReset s.popTurn)

/-- s with the command word of the table's numbering in flight, accepted as R28 says, and the engine to move
next (log entry 6). -/
def latchFetchWord (s : State) (nbits w : Nat) : State :=
  { s with
    blk   := s.blk.acceptCommand (tableWord nbits w)
    turns := match s.turns with
      | []      => []
      | t :: ts => .engine :: t :: ts }

end Sys2Proof.Machine
end

