-- ==== Sys2Proof/Machine/Step.lean ====
section
/-! DEFINITION. One step of the machine, and the state whose next step runs a given command. -/

namespace Sys2Proof.Machine

/-- One step: the agent whose turn it is moves (20_memory.md R73). -/
def step (s : State) : Host.Outcome State Fault Refusal := runTurn s

/-- s with the command of the table's word in flight, so that the very next step completes it. -/
def State.withFetchWord (s : State) (nbits w : Nat) : State := latchFetchWord s nbits w

end Sys2Proof.Machine
end

