-- ==== Sys2Proof/Safety.lean ====
section
/-! DEFINITION. What counts as a safe run: the invariant of the machine, and a run without a fault. -/

namespace Sys2Proof.Machine

/-- Every operand register holds a value below 2^w (10_state.md R20, R36). -/
abbrev Block.Fits (b : Block) (w : Nat) : Prop :=
  b.A < 2 ^ w ∧ b.B < 2 ^ w ∧ b.E < 2 ^ w ∧ b.N < 2 ^ w ∧ b.R < 2 ^ w ∧ b.G < 2 ^ w

/-- STATUS is one that the rules produce: ERRCODE is one of 0 to 5 (60_exceptions.md R201), and while BUSY = 1,
DONE and ERRCODE are 0 (10_state.md R28, 60_exceptions.md R212). -/
abbrev Block.StatusLegal (b : Block) : Prop :=
  b.errcode.val ≤ 5 ∧ (b.busy = true → b.done = false ∧ b.errcode = 0)

/-- The invariant of the machine. -/
abbrev State.Inv (s : State) : Prop :=
  s.params.Legal ∧ s.blk.Fits s.params.opw ∧ s.blk.StatusLegal

/-- A step that does not fault. -/
abbrev SafeStep (s : State) : Prop := ∀ f, step s ≠ .fault f

/-- n steps, stopping at the first fault or refusal: `Host.Core.run` of this machine. -/
def runSteps : Nat → State → Result
  | 0,     s => .next s
  | n + 1, s =>
    match step s with
    | .next t    => runSteps n t
    | .fault f   => .fault f
    | .refused r => .refused r

/-- The end of a run: the host has executed its last statement and the block is quiescent
(70_reset_and_hazards.md R253). A script that a failed WAITOK has aborted counts as ended once BUSY = 0, since none of its
statements is left: R87 says only that it aborts, and R253 does not speak of it (DESIGN CHOICE, log entry 16). -/
abbrev State.Ended (s : State) : Prop := s.host.script = [] ∧ s.blk.busy = false

end Sys2Proof.Machine
end

