-- ==== Sys2Proof/Certificates/Slice0/Obligations.lean ====
section
/-! DEFINITION. The statements for the provers: what the commands, the register window, reset, the engine and the
host agent do, by the numbered rules of spec/. -/

namespace Sys2Proof.Claims
open Sys2Proof.Machine

/-- The errors each command checks, with their codes and conditions, in the order of 60_exceptions.md R202
(30_encoding.md R89, 60_exceptions.md R201). -/
def errorTable (i : Instr) (b : Block) : List (Fin 16 × Bool) :=
  match i with
  | .nop      => []
  | .modmul   => [(2, decide (b.N = 0))]
  | .montmul  => [(2, decide (b.N = 0)), (3, decide (b.N % 2 = 0)), (4, decide (b.N ≤ b.A ∨ b.N ≤ b.B))]
  | .tomont   => [(2, decide (b.N = 0)), (3, decide (b.N % 2 = 0))]
  | .frommont => [(2, decide (b.N = 0)), (3, decide (b.N % 2 = 0)), (4, decide (b.N ≤ b.A))]
  | .modexp   => [(2, decide (b.N = 0))]
  | .gcd      => []
  | .modinv   => [(2, decide (b.N = 0)), (5, decide (Nat.gcd b.A b.N ≠ 1))]
  | .bitlen   => []

/-- The code of the first error that applies, 0 (OK) if none does (60_exceptions.md R202). -/
def firstError (i : Instr) (b : Block) : Fin 16 :=
  match (errorTable i b).find? (fun e => e.2) with
  | some e => e.1
  | none   => 0

/-- The R that command i leaves when it runs on A = a and B = b, if it succeeds. -/
def resultOn (i : Instr) (s : State) (a b : Nat) : Option Nat :=
  match exec i { s with blk := { s.blk with A := a, B := b } } with
  | .next t => if t.blk.errcode = 0 then some t.blk.R else none
  | _       => none

/-- What reading the NW words of a register that holds v binds, newest first: w_k is word k of v
(30_encoding.md R81, R87). -/
def wordBindings (nw v : Nat) : List (Name × Nat) :=
  (List.range nw).reverse.map fun k => (.w k, v / 2 ^ (32 * k) % 2 ^ 32)

end Sys2Proof.Claims

open Sys2Proof Sys2Proof.Machine Sys2Proof.Claims

/-! ### Reset and parameters -/

/-- 10_state.md R37: the reset value of every piece of the block's state, of ID and PARAM as read, and of the IRQ
output, for every legal parameter. -/
def Obligations.ResetLeavesEveryRegisterZero : Prop :=
  ∀ p : Params, p.Legal →
    (State.resetFor p).blk =
      { A := 0, B := 0, E := 0, N := 0, R := 0, G := 0, irqEn := false, cmd := 0x00000000#32,
        busy := false, done := false, overrun := false, errcode := 0 } ∧
    (memRead (State.resetFor p) 0x000).1 = 0x4D580001#32 ∧
    (memRead (State.resetFor p) 0x004).1.toNat = p.nw ∧
    ∀ l, (State.resetFor p).irqLevel l = false

/-- 70_reset_and_hazards.md R240: a hardware reset puts the block to the reset values in every state, a command in
flight included, whose completion never happens. What the reset leaves alone (the host agent, the turns after it)
is the model's choice (log entries 3 and 4). -/
def Obligations.HardwareResetClearsTheBlock : Prop :=
  ∀ (s : State) (ts : List Turn), s.turns = .reset :: ts → s.blk.errcode.val ≤ 5 →
    ∃ t, step s = .next t ∧
      t = { s with turns := ts, blk :=
        { A := 0, B := 0, E := 0, N := 0, R := 0, G := 0, irqEn := false, cmd := 0x00000000#32,
          busy := false, done := false, overrun := false, errcode := 0 } } ∧
      engineStep t = .next t

/-- 10_state.md R26, 70_reset_and_hazards.md R242: a write to CTRL with bit 1 set is a soft reset in every state;
else it writes IRQ_EN. A read returns IRQ_EN in bit 0 and 0 elsewhere. -/
def Obligations.CtrlWriteSoftResetsOrSetsIrqEn : Prop :=
  (∀ p, memRead (State.resetFor p) 0x008 = (0x00000000#32, State.resetFor p)) ∧
  ∀ (s : State) (v : Word),
    (v.getLsbD 1 = true → memWrite s 0x008 v = { s with blk :=
      { A := 0, B := 0, E := 0, N := 0, R := 0, G := 0, irqEn := false, cmd := 0x00000000#32,
        busy := false, done := false, overrun := false, errcode := 0 } } ∧
      engineStep (memWrite s 0x008 v) = .next (memWrite s 0x008 v)) ∧
    (v.getLsbD 1 = false →
      memWrite s 0x008 v = { s with blk := { s.blk with irqEn := v.getLsbD 0 } }) ∧
    memRead s 0x008 = ((if s.blk.irqEn then 0x00000001#32 else 0x00000000#32), s)

/-- 10_state.md R24, R25: ID and PARAM read as constants in every state, writes to them have no effect, and no step
changes what they read. -/
def Obligations.IdAndParamReadConstant : Prop :=
  ∀ (s : State), s.params.Legal →
    memRead s 0x000 = (0x4D580001#32, s) ∧
    (memRead s 0x004).2 = s ∧ (memRead s 0x004).1.toNat = s.params.nw ∧
    (∀ v, memWrite s 0x000 v = s ∧ memWrite s 0x004 v = s) ∧
    ∀ t, step s = .next t → (memRead t 0x000).1 = 0x4D580001#32 ∧
      (memRead t 0x004).1 = (memRead s 0x004).1

/-! ### Encoding -/

/-- 30_encoding.md R82: words written out from the opcode map decode to the commands they stand for. -/
def Obligations.OpcodeMapWordsDecode : Prop :=
  decode 0x00000000#32 = .ok .nop ∧ decode 0x00000001#32 = .ok .modmul ∧
  decode 0x00000002#32 = .ok .montmul ∧ decode 0x00000003#32 = .ok .tomont ∧
  decode 0x00000004#32 = .ok .frommont ∧ decode 0x00000005#32 = .ok .modexp ∧
  decode 0x00000006#32 = .ok .gcd ∧ decode 0x00000007#32 = .ok .modinv ∧
  decode 0x00000008#32 = .ok .bitlen ∧ decode 0x00000010#32 = .error .reservedBits ∧
  decode 0x00000009#32 = .error .reservedOpcode

/-- 30_encoding.md R83, over all 2^32 words: a word is illegal exactly if RSVD is not 0 or OP is one of 0x9 to 0xF,
and decodes to a command exactly if it is that command's word. -/
def Obligations.DecodeAcceptsExactlyTheOpcodeMap : Prop :=
  (∀ (w : Word) (i : Instr), decode w = .ok i ↔ w = encode i) ∧
  ∀ w : Word, (∃ e, decode w = .error e) ↔ w.toNat / 16 ≠ 0 ∨ 9 ≤ w.toNat % 16

/-- Decode and encode agree on bytes, for every command and every byte sequence: the decoder answers i and the rest
exactly on i's four bytes followed by the rest (30_encoding.md sections 1 and 2; 20_memory.md section 3 for the byte
lanes). -/
def Obligations.BytesDecodeExactlyWhenEncoded : Prop :=
  ∀ (bs rest : List Byte) (i : Instr),
    decodeBytes bs = .ok (i, rest) ↔ bs = encodeBytes i ++ rest

/-! ### The step -/

/-- A step runs the decoded command: on the engine's turn, with a command in flight, the step is `exec` of the
command that CMD decodes to, at the state with that turn taken off the list (the state itself when the list is empty)
(60_exceptions.md section 1; the turns are the model's, log entry 3). -/
def Obligations.StepRunsTheLatchedCommand : Prop :=
  ∀ (s : State) (i : Instr),
    agentToMove s = .engine → s.blk.busy = true → s.blk.errcode.val ≤ 5 → decode s.blk.cmd = .ok i →
    step s = exec i s.popTurn ∧ (s.turns = [] → step s = exec i s)

/-- Who moves (log entry 3; 20_memory.md section 4): the agent at the head of the turns; with none listed the engine
while a command is in flight, else the host. A turn given to the engine with BUSY = 0 does nothing. -/
def Obligations.StepIsTheMovingAgentsStep : Prop :=
  ∀ (s : State), s.blk.errcode.val ≤ 5 →
    (∀ ts, s.turns = .host :: ts → step s = hostStep { s with turns := ts }) ∧
    (∀ ts, s.turns = .engine :: ts → step s = engineStep { s with turns := ts }) ∧
    (∀ ts, s.turns = .engine :: ts → s.blk.busy = false → step s = .next { s with turns := ts }) ∧
    (s.turns = [] → s.blk.busy = true → step s = engineStep s) ∧
    (s.turns = [] → s.blk.busy = false → step s = hostStep s)

/-- 40_control.md R101: an illegal word in flight completes with ILLEGAL_CMD whatever the operands hold; no operand
register changes and CMD still holds the word. That it is the engine's turn, and the turn taken off the list, are the
model's (log entry 3). -/
def Obligations.IllegalWordCompletesWithCodeOne : Prop :=
  ∀ (s : State), agentToMove s = .engine → s.blk.busy = true → s.blk.errcode.val ≤ 5 →
    (s.blk.cmd.toNat / 16 ≠ 0 ∨ 9 ≤ s.blk.cmd.toNat % 16) →
    step s = .next { s with
      turns := s.turns.tail
      blk   := { s.blk with busy := false, done := true, errcode := 1 } }

/-! ### The commands -/

/-- 40_control.md R100. -/
def Obligations.NopOnlyCompletes : Prop :=
  encode .nop = 0x00000000#32 ∧
  ∀ s : State, exec .nop s =
    .next { s with blk := { s.blk with busy := false, done := true, errcode := 0 } }

/-- 41_modmul.md R120. -/
def Obligations.ModmulReducesTheExactProduct : Prop :=
  encode .modmul = 0x00000001#32 ∧
  ∀ s : State,
    (s.blk.N = 0 → exec .modmul s =
      .next { s with blk := { s.blk with busy := false, done := true, errcode := 2 } }) ∧
    (s.blk.N ≠ 0 → exec .modmul s =
      .next { s with blk := { s.blk with
        R := s.blk.A * s.blk.B % s.blk.N, busy := false, done := true, errcode := 0 } })

/-- 41_modmul.md R125: with x = inv(2^OPW mod N, N), the one value below N with (2^OPW * x) mod N = 1 mod N
(00_scope.md R9), R = (A * B * x) mod N. -/
def Obligations.MontmulMultipliesByTheRadixInverse : Prop :=
  encode .montmul = 0x00000002#32 ∧
  ∀ s : State,
    (s.blk.N = 0 → exec .montmul s =
      .next { s with blk := { s.blk with busy := false, done := true, errcode := 2 } }) ∧
    (s.blk.N ≠ 0 → s.blk.N % 2 = 0 → exec .montmul s =
      .next { s with blk := { s.blk with busy := false, done := true, errcode := 3 } }) ∧
    (s.blk.N % 2 = 1 → (s.blk.N ≤ s.blk.A ∨ s.blk.N ≤ s.blk.B) → exec .montmul s =
      .next { s with blk := { s.blk with busy := false, done := true, errcode := 4 } }) ∧
    (s.blk.N % 2 = 1 → s.blk.A < s.blk.N → s.blk.B < s.blk.N →
      ∃ x, x < s.blk.N ∧ (2 ^ s.params.opw % s.blk.N) * x % s.blk.N = 1 % s.blk.N ∧
        exec .montmul s = .next { s with blk := { s.blk with
          R := s.blk.A * s.blk.B * x % s.blk.N, busy := false, done := true, errcode := 0 } })

/-- 41_modmul.md R130. -/
def Obligations.TomontMultipliesByTheRadix : Prop :=
  encode .tomont = 0x00000003#32 ∧
  ∀ s : State,
    (s.blk.N = 0 → exec .tomont s =
      .next { s with blk := { s.blk with busy := false, done := true, errcode := 2 } }) ∧
    (s.blk.N ≠ 0 → s.blk.N % 2 = 0 → exec .tomont s =
      .next { s with blk := { s.blk with busy := false, done := true, errcode := 3 } }) ∧
    (s.blk.N % 2 = 1 → exec .tomont s =
      .next { s with blk := { s.blk with
        R := s.blk.A * 2 ^ s.params.opw % s.blk.N, busy := false, done := true, errcode := 0 } })

/-- 41_modmul.md R133; x as in R125. -/
def Obligations.FrommontDividesByTheRadix : Prop :=
  encode .frommont = 0x00000004#32 ∧
  ∀ s : State,
    (s.blk.N = 0 → exec .frommont s =
      .next { s with blk := { s.blk with busy := false, done := true, errcode := 2 } }) ∧
    (s.blk.N ≠ 0 → s.blk.N % 2 = 0 → exec .frommont s =
      .next { s with blk := { s.blk with busy := false, done := true, errcode := 3 } }) ∧
    (s.blk.N % 2 = 1 → s.blk.N ≤ s.blk.A → exec .frommont s =
      .next { s with blk := { s.blk with busy := false, done := true, errcode := 4 } }) ∧
    (s.blk.N % 2 = 1 → s.blk.A < s.blk.N →
      ∃ x, x < s.blk.N ∧ (2 ^ s.params.opw % s.blk.N) * x % s.blk.N = 1 % s.blk.N ∧
        exec .frommont s = .next { s with blk := { s.blk with
          R := s.blk.A * x % s.blk.N, busy := false, done := true, errcode := 0 } })

/-- 42_modexp.md R150; a^0 = 1, also for a = 0. -/
def Obligations.ModexpRaisesToThePower : Prop :=
  encode .modexp = 0x00000005#32 ∧
  ∀ s : State,
    (s.blk.N = 0 → exec .modexp s =
      .next { s with blk := { s.blk with busy := false, done := true, errcode := 2 } }) ∧
    (s.blk.N ≠ 0 → exec .modexp s =
      .next { s with blk := { s.blk with
        R := s.blk.A ^ s.blk.E % s.blk.N, busy := false, done := true, errcode := 0 } })

/-- 43_gcd_inverse.md R170: the value g in R and G is the greatest common divisor, and gcd(0, 0) = 0. -/
def Obligations.GcdWritesBothResults : Prop :=
  encode .gcd = 0x00000006#32 ∧
  ∀ s : State, ∃ g, g ∣ s.blk.A ∧ g ∣ s.blk.B ∧ (∀ d, d ∣ s.blk.A → d ∣ s.blk.B → d ∣ g) ∧
    exec .gcd s = .next { s with blk := { s.blk with
      R := g, G := g, busy := false, done := true, errcode := 0 } }

/-- 43_gcd_inverse.md R172: on success R is the one x below N with (A * x) mod N = 1 mod N. -/
def Obligations.ModinvInvertsOrReportsTheGcd : Prop :=
  encode .modinv = 0x00000007#32 ∧
  ∀ s : State,
    (s.blk.N = 0 → exec .modinv s =
      .next { s with blk := { s.blk with busy := false, done := true, errcode := 2 } }) ∧
    (s.blk.N ≠ 0 → Nat.gcd s.blk.A s.blk.N ≠ 1 → exec .modinv s =
      .next { s with blk := { s.blk with
        G := Nat.gcd s.blk.A s.blk.N, busy := false, done := true, errcode := 5 } }) ∧
    (s.blk.N ≠ 0 → Nat.gcd s.blk.A s.blk.N = 1 →
      ∃ x, x < s.blk.N ∧ s.blk.A * x % s.blk.N = 1 % s.blk.N ∧
        exec .modinv s = .next { s with blk := { s.blk with
          R := x, G := 1, busy := false, done := true, errcode := 0 } })

/-- 44_bitlen.md R190: R is the least k with A < 2^k; where A fits in the register, k is at most OPW. -/
def Obligations.BitlenIsTheLeastExponent : Prop :=
  encode .bitlen = 0x00000008#32 ∧
  ∀ s : State, ∃ k, s.blk.A < 2 ^ k ∧ (∀ j, s.blk.A < 2 ^ j → k ≤ j) ∧
    (s.blk.A < 2 ^ s.params.opw → k ≤ s.params.opw) ∧
    exec .bitlen s = .next { s with blk := { s.blk with
      R := k, busy := false, done := true, errcode := 0 } }

/-! ### Errors and completion -/

/-- 60_exceptions.md R202: the code reported is the first that applies, decoding first. -/
def Obligations.FirstApplicableErrorIsReported : Prop :=
  ∀ (s : State), s.blk.busy = true →
    (∀ e, decode s.blk.cmd = .error e → ∃ t, engineStep s = .next t ∧ t.blk.errcode = 1) ∧
    (∀ i, decode s.blk.cmd = .ok i → ∃ t, engineStep s = .next t ∧ t.blk.errcode = firstError i s.blk)

/-- 60_exceptions.md R203: a command that ends with an error writes BUSY, DONE and ERRCODE only, but for MODINV with
NOT_INVERTIBLE, which also writes G; and no command, failed or not, writes A, B, E or N. -/
def Obligations.FailedCommandWritesOnlyStatus : Prop :=
  ∀ (s t : State), s.blk.busy = true → engineStep s = .next t →
    (t.blk.errcode ≠ 0 → ¬(decode s.blk.cmd = .ok .modinv ∧ t.blk.errcode = 5) →
      t = { s with blk := { s.blk with busy := false, done := true, errcode := t.blk.errcode } }) ∧
    (decode s.blk.cmd = .ok .modinv → t.blk.errcode = 5 →
      t = { s with blk := { s.blk with
        G := Nat.gcd s.blk.A s.blk.N, busy := false, done := true, errcode := 5 } }) ∧
    t.blk.A = s.blk.A ∧ t.blk.B = s.blk.B ∧ t.blk.E = s.blk.E ∧ t.blk.N = s.blk.N

/-- 60_exceptions.md section 1 (the block never traps; the completion step): on the engine's turn with BUSY = 1 every
word in flight completes, in every state whose ERRCODE the rules produce. BUSY is cleared, DONE set, ERRCODE one of 0
to 5.
Whose turn it is, is the model's (log entry 3). -/
def Obligations.EveryCommandInFlightCompletes : Prop :=
  ∀ (s : State), agentToMove s = .engine → s.blk.busy = true → s.blk.errcode.val ≤ 5 →
    ∃ t, step s = .next t ∧ t.blk.busy = false ∧ t.blk.done = true ∧ t.blk.errcode.val ≤ 5

/-- The frame of all nine commands (10_state.md section 1; 60_exceptions.md section 1): A, B, E, N, CMD, IRQ_EN,
OVERRUN, the parameters, the host, the turns and the draws are unchanged; R is unchanged unless the command succeeds
and is not NOP; G is unchanged unless the command is GCD or MODINV; and every word of the register window outside
STATUS and the windows of R and G reads as before. -/
def Obligations.CommandFrame : Prop :=
  ∀ (i : Instr) (s t : State), exec i s = .next t →
    t.blk.A = s.blk.A ∧ t.blk.B = s.blk.B ∧ t.blk.E = s.blk.E ∧ t.blk.N = s.blk.N ∧
    t.blk.cmd = s.blk.cmd ∧ t.blk.irqEn = s.blk.irqEn ∧ t.blk.overrun = s.blk.overrun ∧
    t.params = s.params ∧ t.host = s.host ∧ t.turns = s.turns ∧ t.draws = s.draws ∧
    (t.blk.errcode ≠ 0 ∨ i = .nop → t.blk.R = s.blk.R) ∧
    (i ≠ .gcd → i ≠ .modinv → t.blk.G = s.blk.G) ∧
    ∀ off, off ≠ 0x010 → ¬(0x1400 ≤ off ∧ off < 0x1C00) →
      t.blk.windowRead t.params.nw off = s.blk.windowRead s.params.nw off

/-- 60_exceptions.md R212: each order of a host write and the completion has its defined result. -/
def Obligations.OrderOfWriteAndCompletionDecides : Prop :=
  ∀ (s : State) (w : Word), s.Inv → s.blk.busy = true →
    (memWrite s 0x010 0x00000002#32).blk.done = false ∧
    memWrite s 0x010 0x00000002#32 = s ∧
    memWrite s 0x00C w = { s with blk := { s.blk with overrun := true } } ∧
    engineStep (memWrite s 0x008 0x00000002#32) = .next (memWrite s 0x008 0x00000002#32) ∧
    ∃ t, engineStep s = .next t ∧ t.blk.done = true ∧
      memWrite t 0x010 0x00000002#32 = { t with blk := { t.blk with done := false } } ∧
      memWrite t 0x00C w = { t with blk := { t.blk with
        cmd := w, busy := true, done := false, errcode := 0 } }

/-- 60_exceptions.md R210: IRQ is IRQ_EN and DONE, on line IRQ_LINE; masking does not clear DONE; clearing DONE,
accepting a command and a reset deassert it. -/
def Obligations.IrqFollowsEnableAndDone : Prop :=
  ∀ (s : State) (w v : Word),
    (∀ l, s.irqLevel l = true ↔ l = s.params.irqLine ∧ s.blk.irqEn = true ∧ s.blk.done = true) ∧
    (memWrite s 0x008 0x00000000#32).blk.irq = false ∧
    (memWrite s 0x008 0x00000000#32).blk.done = s.blk.done ∧
    (memWrite s 0x008 0x00000001#32).blk.irq = s.blk.done ∧
    (v.getLsbD 1 = true → (memWrite s 0x010 v).blk.irq = false) ∧
    (s.blk.busy = false → (memWrite s 0x00C w).blk.irq = false) ∧
    (v.getLsbD 1 = true → (memWrite s 0x008 v).blk.irq = false) ∧
    (hardwareReset s).blk.irq = false

/-- Only a completion raises DONE (60_exceptions.md section 2: one cause, command completion).
Whose turn it is, is the model's (log entry 3). -/
def Obligations.OnlyCompletionSetsDone : Prop :=
  ∀ (s t : State), step s = .next t → s.blk.done = false → t.blk.done = true →
    s.blk.busy = true ∧ agentToMove s = .engine

/-- Only a write dropped because BUSY = 1 raises OVERRUN, a write to CMD, A, B, E or N, and it changes nothing else of
the block (60_exceptions.md section 1, R205's rule).
Whose turn it is, is the model's (log entry 3). -/
def Obligations.OnlyDroppedWriteSetsOverrun : Prop :=
  ∀ (s t : State), step s = .next t → s.blk.overrun = false → t.blk.overrun = true →
    s.blk.busy = true ∧ agentToMove s = .host ∧ t.blk = { s.blk with overrun := true } ∧
    ∃ st rest addr v, s.host.script = st :: rest ∧ st.request s.params = .write addr 32 v ∧
      (addr = s.params.base + 0x00C ∨
        (s.params.base + 0x0400 ≤ addr ∧ addr < s.params.base + 0x1400))

/-! ### The register window -/

/-- 10_state.md R28: a CMD write is accepted, latched whole, when BUSY = 0 and dropped when BUSY = 1; a read returns
the last accepted word; reset leaves 0. -/
def Obligations.CmdWriteIsAcceptedOrDropped : Prop :=
  (∀ (s : State) (v : Word),
    (s.blk.busy = true → memWrite s 0x00C v = { s with blk := { s.blk with overrun := true } }) ∧
    (s.blk.busy = false → memWrite s 0x00C v = { s with blk := { s.blk with
      cmd := v, busy := true, done := false, errcode := 0 } }) ∧
    memRead s 0x00C = (s.blk.cmd, s)) ∧
  ∀ p, (State.resetFor p).blk.cmd = 0x00000000#32

/-- 10_state.md R22: a host write to word k of X. The bits named are replaced and no others; a write to R or G has no
effect in any state. -/
def Obligations.OperandWriteReplacesOneWord : Prop :=
  ∀ (s : State) (x : Operand) (k : Nat) (v : Word), k < 256 →
    ((x = .r ∨ x = .g) → memWrite s (win x + 4 * k) v = s) ∧
    (x ≠ .r → x ≠ .g → s.blk.busy = true →
      memWrite s (win x + 4 * k) v = { s with blk := { s.blk with overrun := true } }) ∧
    (x ≠ .r → x ≠ .g → s.blk.busy = false → s.params.nw ≤ k → memWrite s (win x + 4 * k) v = s) ∧
    (x ≠ .r → x ≠ .g → s.blk.busy = false → k < s.params.nw →
      ∃ n, (∀ j, n.testBit j =
          if 32 * k ≤ j ∧ j < 32 * k + 32 then v.getLsbD (j - 32 * k) else (s.blk.get x).testBit j) ∧
        memWrite s (win x + 4 * k) v = { s with blk := s.blk.set x n })

/-- 10_state.md R23: a host read of word k of X. The unspecified value is the next free value, whatever the number of
draws before it (log entry 5). -/
def Obligations.OperandReadReturnsOneWord : Prop :=
  ∀ (s : State) (x : Operand) (k : Nat), k < 256 →
    (s.params.nw ≤ k → memRead s (win x + 4 * k) = (0#32, s)) ∧
    (k < s.params.nw → (x = .r ∨ x = .g) → s.blk.busy = true →
      memRead s (win x + 4 * k) = (Config.freeWord s.draws, { s with draws := s.draws + 1 })) ∧
    (k < s.params.nw → ((x ≠ .r ∧ x ≠ .g) ∨ s.blk.busy = false) →
      ∃ w : Word, (∀ j, j < 32 → w.getLsbD j = (s.blk.get x).testBit (32 * k + j)) ∧
        memRead s (win x + 4 * k) = (w, s))

/-- 10_state.md R27: the layout of STATUS as read, and write-1-to-clear. -/
def Obligations.StatusReadsAndClears : Prop :=
  (∀ p, memRead (State.resetFor p) 0x010 = (0x00000000#32, State.resetFor p)) ∧
  ∀ (s : State) (v : Word),
    (∃ w : Word, memRead s 0x010 = (w, s) ∧ w.getLsbD 0 = s.blk.busy ∧ w.getLsbD 1 = s.blk.done ∧
      (w.getLsbD 2 = true ↔ s.blk.errcode ≠ 0) ∧ w.getLsbD 3 = s.blk.overrun ∧
      w.extractLsb' 4 4 = 0#4 ∧ (w.extractLsb' 8 4).toNat = s.blk.errcode.val ∧
      w.extractLsb' 12 20 = 0#20) ∧
    memWrite s 0x010 v = { s with blk := { s.blk with
      done := if v.getLsbD 1 then false else s.blk.done
      overrun := if v.getLsbD 3 then false else s.blk.overrun } }

/-- Reserved offsets read 0 and ignore writes (10_state.md section 2, first sentences of R29's rule). -/
def Obligations.ReservedOffsetsReadZeroIgnoreWrites : Prop :=
  ∀ (s : State) (off : Nat) (v : Word), off % 4 = 0 →
    ((0x014 ≤ off ∧ off < 0x400) ∨ (0x1C00 ≤ off ∧ off < 0x2000)) →
    memRead s off = (0#32, s) ∧ memWrite s off v = s

/-- Reads have no side effect (20_memory.md section 3): a read changes nothing but the count of draws, and that only
when it reads R or G while BUSY = 1. -/
def Obligations.ReadsHaveNoSideEffect : Prop :=
  ∀ (s : State) (off : Nat),
    (memRead s off).2 = s ∨
    (s.blk.busy = true ∧ 0x1400 ≤ off ∧ off < 0x1C00 ∧ (memRead s off).2 = { s with draws := s.draws + 1 })

/-- A word written to A, B, E or N while BUSY = 0 is read back, and every other word of the window reads as before
(20_memory.md sections 1 and 2). -/
def Obligations.OperandWordWrittenIsReadBack : Prop :=
  ∀ (s : State) (x : Operand) (k off : Nat) (v : Word),
    x ≠ .r → x ≠ .g → k < s.params.nw → k < 256 → s.blk.busy = false → off % 4 = 0 →
    memRead (memWrite s (win x + 4 * k) v) (win x + 4 * k) = (v, memWrite s (win x + 4 * k) v) ∧
    (off ≠ win x + 4 * k →
      (memWrite s (win x + 4 * k) v).blk.windowRead s.params.nw off = s.blk.windowRead s.params.nw off)

/-- 20_memory.md R68: an access in the window that is not 32 bits wide, or not at a multiple of 4, is refused, whatever
statement makes it: the host gets no step. The last two clauses say it of WR and RD by their offsets.
Whose turn it is, is the model's (log entry 3). -/
def Obligations.UndefinedAccessIsRefused : Prop :=
  ∀ (s : State) (st : Stmt) (rest : List Stmt),
    agentToMove s = .host → s.blk.errcode.val ≤ 5 → s.host.script = st :: rest →
    (∀ addr width,
      (st.request s.params = .read addr width ∨ ∃ v, st.request s.params = .write addr width v) →
      s.params.base ≤ addr → addr < s.params.base + 0x2000 →
      (width ≠ 32 ∨ (addr - s.params.base) % 4 ≠ 0) →
      step s = .refused .undefinedAccess) ∧
    (∀ off v, st = .wr off v → off < 0x2000 → off % 4 ≠ 0 → step s = .refused .undefinedAccess) ∧
    (∀ off name, st = .rd off name → off < 0x2000 → off % 4 ≠ 0 → step s = .refused .undefinedAccess)

/-- An access outside the block's 8 KiB window is the platform's and is refused, whatever statement makes it, and
whatever its width and alignment (93_implementation_defined.md item I10; log entry 8). The last two clauses say it of WR
and RD by their offsets.
Whose turn it is, is the model's (log entry 3). -/
def Obligations.AccessOutsideTheWindowIsRefused : Prop :=
  ∀ (s : State) (st : Stmt) (rest : List Stmt),
    agentToMove s = .host → s.blk.errcode.val ≤ 5 → s.host.script = st :: rest →
    (∀ addr width,
      (st.request s.params = .read addr width ∨ ∃ v, st.request s.params = .write addr width v) →
      (addr < s.params.base ∨ s.params.base + 0x2000 ≤ addr) →
      step s = .refused .outsideWindow) ∧
    (∀ off v, st = .wr off v → 0x2000 ≤ off → step s = .refused .outsideWindow) ∧
    (∀ off name, st = .rd off name → 0x2000 ≤ off → step s = .refused .outsideWindow)

/-! ### The host agent -/

/-- The statements of one write (30_encoding.md section 4), and a 32-bit bus write at BASE + off (20_memory.md section
1): each is MemWrite of its offset and word, and the statement is done (the host agent and the turns are the model's, log
entries 3 and 4). -/
def Obligations.HostWriteStatementsWriteTheWindow : Prop :=
  ∀ (s : State) (st : Stmt) (rest : List Stmt) (off : Nat) (v : Word),
    agentToMove s = .host → s.blk.errcode.val ≤ 5 → s.host.script = st :: rest →
    ((st = .wr off v ∧ off % 4 = 0 ∧ off < 0x2000) ∨
      (st = .busWrite (s.params.base + off) 32 v ∧ off % 4 = 0 ∧ off < 0x2000) ∨
      (∃ i, st = .command i ∧ off = 0x00C ∧ v = encode i) ∨
      (st = .ack ∧ off = 0x010 ∧ v = 0x00000002#32) ∨
      (st = .clrovr ∧ off = 0x010 ∧ v = 0x00000008#32) ∨
      (st = .irqon ∧ off = 0x008 ∧ v = 0x00000001#32) ∨
      (st = .irqoff ∧ off = 0x008 ∧ v = 0x00000000#32) ∨
      (st = .sreset ∧ off = 0x008 ∧ v = 0x00000002#32)) →
    step s = .next (memWrite { s with turns := s.turns.tail, host := { s.host with script := rest } } off v)

/-- RD, WAIT and WAITOK (30_encoding.md section 4): RD binds what MemRead returns; WAIT binds s to the STATUS word read,
and ends when its BUSY bit is 0; WAITOK then aborts the script if ERRCODE is not 0. A 32-bit bus read at BASE + off is as
RD (20_memory.md section 1; the host agent, its names and the turns are the model's, log entries 3, 4 and 17). -/
def Obligations.HostReadStatementsReadTheWindow : Prop :=
  ∀ (s : State) (rest : List Stmt), agentToMove s = .host → s.blk.errcode.val ≤ 5 →
    (∀ off name,
      (s.host.script = .rd off name :: rest ∨ s.host.script = .busRead (s.params.base + off) 32 name :: rest) →
      off % 4 = 0 → off < 0x2000 →
      step s = .next { (memRead s off).2 with
        turns := s.turns.tail
        host := { s.host with script := rest, vars := (name, (memRead s off).1.toNat) :: s.host.vars } }) ∧
    (s.host.script = .wait :: rest → step s = .next { s with
      turns := s.turns.tail
      host := { s.host with
        script := if s.blk.busy then .wait :: rest else rest
        vars := (.s, (memRead s 0x010).1.toNat) :: s.host.vars } }) ∧
    (s.host.script = .waitok :: rest → s.blk.busy = true → step s = .next { s with
      turns := s.turns.tail
      host := { s.host with vars := (.s, (memRead s 0x010).1.toNat) :: s.host.vars } }) ∧
    (s.host.script = .waitok :: rest → s.blk.busy = false → s.blk.errcode = 0 → step s = .next { s with
      turns := s.turns.tail
      host := { s.host with script := rest, vars := (.s, (memRead s 0x010).1.toNat) :: s.host.vars } }) ∧
    (s.host.script = .waitok :: rest → s.blk.busy = false → s.blk.errcode ≠ 0 → step s = .next { s with
      turns := s.turns.tail
      host := { script := [], vars := (.s, (memRead s 0x010).1.toNat) :: s.host.vars, aborted := true } })

/-- LOAD X, v (30_encoding.md section 4), for every OPW: after its NW accesses X holds v, and nothing else of the block
has changed (the host agent and the empty list of turns are the model's, log entries 3 and 4). -/
def Obligations.LoadPutsTheValueInTheRegister : Prop :=
  ∀ (s : State) (x : Operand) (v : Nat) (rest : List Stmt),
    s.Inv → s.turns = [] → s.blk.busy = false → x ≠ .r → x ≠ .g → v < 2 ^ s.params.opw →
    s.host.script = .load x v 0 :: rest →
    runSteps s.params.nw s =
      .next { s with blk := s.blk.set x v, host := { s.host with script := rest } }

/-- READ X -> name (30_encoding.md section 4), for every OPW: after its NW accesses the name holds X's value, each w_k
word k of it, and the block is unchanged (the host agent, its names and the empty list of turns are the model's, log
entries 3, 4 and 17). -/
def Obligations.ReadReturnsTheRegister : Prop :=
  ∀ (s : State) (x : Operand) (name : Name) (rest : List Stmt),
    s.Inv → s.turns = [] → s.blk.busy = false → s.host.script = .read x name 0 0 :: rest →
    runSteps s.params.nw s =
      .next { s with host := { s.host with
        script := rest
        vars := (name, s.blk.get x) :: (wordBindings s.params.nw (s.blk.get x) ++ s.host.vars) } }

/-- MOV X, Y (30_encoding.md section 4), for every OPW: after its 2 * NW accesses X and the name t hold Y's value, each
w_k word k of it, and nothing else of the block has changed (the host agent, its names and the empty list of turns are
the model's, log entries 3, 4 and 17). -/
def Obligations.MovCopiesTheRegister : Prop :=
  ∀ (s : State) (x y : Operand) (rest : List Stmt),
    s.Inv → s.turns = [] → s.blk.busy = false → x ≠ .r → x ≠ .g →
    s.host.script = .mov x y 0 0 :: rest →
    runSteps (2 * s.params.nw) s =
      .next { s with
        blk := s.blk.set x (s.blk.get y)
        host := { s.host with
          script := rest
          vars := (.t, s.blk.get y) :: (wordBindings s.params.nw (s.blk.get y) ++ s.host.vars) } }

/-! ### Whole-machine rules -/

/-- The invariant of the machine holds right after reset, with BUSY = 0, for every legal parameter (10_state.md section
5), and for the parameters of State.reset (the model's choice, log entries 1 and 2). -/
def Obligations.ResetMeetsTheInvariant : Prop :=
  (∀ p : Params, p.Legal → (State.resetFor p).Inv ∧ (State.resetFor p).blk.busy = false) ∧
  State.reset.Inv ∧ State.reset.blk.busy = false

/-- Every step keeps the invariant: operand registers below 2^OPW, ERRCODE one of 0 to 5, and DONE and ERRCODE 0 while
BUSY = 1 (10_state.md sections 1 and 5, 60_exceptions.md section 1). -/
def Obligations.EveryStepKeepsTheInvariant : Prop :=
  ∀ (s t : State), s.Inv → step s = .next t → t.Inv

/-- The machine faults exactly on a reserved ERRCODE, which the invariant rules out (93_implementation_defined.md item
I5); and it refuses only an access of the host.
Whose turn it is, is the model's (log entry 3). -/
def Obligations.StopsAreReservedCodesAndHostAccesses : Prop :=
  ∀ (s : State),
    (∀ f, step s = .fault f ↔ f = .reservedErrcode ∧ 5 < s.blk.errcode.val) ∧
    (s.Inv → ∀ f, step s ≠ .fault f) ∧
    (∀ r, step s = .refused r → agentToMove s = .host ∧ s.host.script ≠ [] ∧
      (r = .undefinedAccess ∨ r = .outsideWindow))

/-- R and G change only by a completion, or by a reset, which clears the whole block (20_memory.md section 4,
10_state.md section 1).
Whose turn it is, is the model's (log entry 3). -/
def Obligations.ResultsChangeOnlyByCompletionOrReset : Prop :=
  ∀ (s t : State), step s = .next t →
    (t.blk.R = s.blk.R ∧ t.blk.G = s.blk.G) ∨
    (s.blk.busy = true ∧ agentToMove s = .engine) ∨
    t.blk = { A := 0, B := 0, E := 0, N := 0, R := 0, G := 0, irqEn := false, cmd := 0x00000000#32,
              busy := false, done := false, overrun := false, errcode := 0 }

/-- The result of a command is a function of what A, B, E, N and CMD hold when it is accepted (10_state.md section 4):
over any run of steps during which BUSY stays 1, whatever the host does, the inputs do not change, and completing at
its end gives the R, G and ERRCODE that completing at its start would have given. -/
def Obligations.ResultIsFixedAtAcceptance : Prop :=
  ∀ (n : Nat) (f : Nat → State),
    (∀ j, j < n → step (f j) = .next (f (j + 1))) → (∀ j, j ≤ n → (f j).blk.busy = true) →
    (f n).blk.A = (f 0).blk.A ∧ (f n).blk.B = (f 0).blk.B ∧ (f n).blk.E = (f 0).blk.E ∧
    (f n).blk.N = (f 0).blk.N ∧ (f n).blk.cmd = (f 0).blk.cmd ∧
    ∃ t u, engineStep (f n) = .next t ∧ engineStep (f 0) = .next u ∧
      t.blk.R = u.blk.R ∧ t.blk.G = u.blk.G ∧ t.blk.errcode = u.blk.errcode

/-! ### Laws of the arithmetic -/

/-- 41_modmul.md R135: the Montgomery-domain laws, for odd N and x, y below N, as laws of the commands. -/
def Obligations.MontgomeryDomainLaws : Prop :=
  ∀ (s : State) (x y : Nat), s.blk.N % 2 = 1 → x < s.blk.N → y < s.blk.N →
    ∃ tx ty tz t1,
      resultOn .tomont s x 0 = some tx ∧ resultOn .tomont s y 0 = some ty ∧
      resultOn .tomont s (x * y % s.blk.N) 0 = some tz ∧ resultOn .tomont s 1 0 = some t1 ∧
      tx < s.blk.N ∧ ty < s.blk.N ∧ tz < s.blk.N ∧ t1 < s.blk.N ∧
      resultOn .frommont s tx 0 = some x ∧
      resultOn .montmul s tx ty = some tz ∧
      resultOn .frommont s tz 0 = some (x * y % s.blk.N) ∧
      resultOn .modmul s x y = some (x * y % s.blk.N) ∧
      (∀ a, a < s.blk.N → resultOn .montmul s a t1 = some a) ∧
      ∀ a b, a < s.blk.N → b < s.blk.N →
        ∃ z u, resultOn .montmul s a b = some z ∧ z < s.blk.N ∧ resultOn .frommont s z 0 = some u

/-- 42_modexp.md R153: with n = p * q for distinct primes and (e * d) mod ((p-1)(q-1)) = 1, MODEXP with e and then
MODEXP with d gives the message back, for every message below n. -/
def Obligations.RsaRoundTrip : Prop :=
  ∀ (s : State) (p q d : Nat), p.Prime → q.Prime → p ≠ q → s.blk.N = p * q →
    s.blk.E * d % ((p - 1) * (q - 1)) = 1 → s.blk.A < s.blk.N →
    ∃ t u, exec .modexp s = .next t ∧ t.blk.errcode = 0 ∧ t.blk.R = s.blk.A ^ s.blk.E % s.blk.N ∧
      exec .modexp { t with blk := { t.blk with A := t.blk.R, E := d } } = .next u ∧
      u.blk.errcode = 0 ∧ u.blk.R = s.blk.A

/-- 43_gcd_inverse.md R174: whenever MODINV on A = e and N = phi succeeds with R = d, (e * d) mod phi = 1 for
phi > 1; for phi = 1, R = 0. -/
def Obligations.SuccessfulInverseMultipliesToOne : Prop :=
  ∀ (s t : State), exec .modinv s = .next t → t.blk.errcode = 0 →
    (1 < s.blk.N → s.blk.A * t.blk.R % s.blk.N = 1) ∧ (s.blk.N = 1 → t.blk.R = 0)

/-- The bit-serial reference datapath (41_modmul.md section 2): its accumulator stays below 2m in every round, and its
value is MONTMUL's result, for every OPW. -/
def Obligations.RadixTwoDatapathComputesMontmul : Prop :=
  ∀ (s : State), s.blk.N % 2 = 1 → s.blk.A < s.blk.N → s.blk.B < s.blk.N → s.blk.N < 2 ^ s.params.opw →
    (∀ j, j ≤ s.params.opw → montAcc s.blk.A s.blk.B s.blk.N j < 2 * s.blk.N) ∧
    resultOn .montmul s s.blk.A s.blk.B = some (montMulR2 s.params.opw s.blk.A s.blk.B s.blk.N)

/-- The square-and-multiply reference datapath (42_modexp.md, R151's algorithm) computes a^k mod m. -/
def Obligations.SquareAndMultiplyComputesThePower : Prop :=
  ∀ a k m : Nat, 1 ≤ m → powMod a k m = a ^ k % m

/-- The extended Euclid reference datapath (43_gcd_inverse.md, R171's algorithm) returns the gcd and, normalised into
[0, m), a coefficient x with a * x and the gcd congruent modulo m. -/
def Obligations.ExtendedEuclidComputesGcdAndCoefficient : Prop :=
  ∀ a m : Nat, 1 ≤ m →
    (xgcdInv a m).1 = Nat.gcd a m ∧ (xgcdInv a m).2 < m ∧
    a * (xgcdInv a m).2 % m = Nat.gcd a m % m
end

