-- ==== Sys2Proof/Laws/Arith.lean ====
section
/-! SUPPORT. One spec lemma for each arithmetic operation and for each loop of the reference datapaths: its
invariant, said once (00_scope.md R9; 41_modmul.md R126; 42_modexp.md R151; 43_gcd_inverse.md R171). -/

namespace Sys2Proof.Machine

@[simp] theorem bitlen_zero : bitlen 0 = 0 := rfl

/-- x is below 2^bitlen(x). -/
theorem lt_two_pow_bitlen (x : Nat) : x < 2 ^ bitlen x := by
  unfold bitlen
  split
  · simp_all
  · exact Nat.lt_log2_self

/-- bitlen(x) is the least exponent whose power of two is above x. -/
theorem bitlen_le_of_lt {x k : Nat} (h : x < 2 ^ k) : bitlen x ≤ k := by
  unfold bitlen
  split
  · exact Nat.zero_le k
  · rename_i hx
    exact (Nat.log2_lt hx).2 h

theorem mulMod_lt (a b : Nat) {m : Nat} (hm : 0 < m) : mulMod a b m < m := Nat.mod_lt _ hm

/-- The low n + 1 bits of k, by its bit n and its low n bits. -/
theorem mod_two_pow_succ_testBit (k n : Nat) :
    k % 2 ^ (n + 1) = k % 2 ^ n + (if k.testBit n then 2 ^ n else 0) := by
  have h1 : k % 2 ^ (n + 1) = k % 2 ^ n + 2 ^ n * (k / 2 ^ n % 2) := by
    rw [pow_succ, Nat.mod_mul]
  rw [h1, Nat.testBit_eq_decide_div_mod_eq]
  rcases Nat.mod_two_eq_zero_or_one (k / 2 ^ n) with h | h <;> simp [h]

/-- The square-and-multiply loop over i bits: x is raised to 2^i and multiplied by b to the low i bits of k. -/
theorem powLoop_mod (b k m i x : Nat) :
    powLoop b k m i x % m = x ^ 2 ^ i * b ^ (k % 2 ^ i) % m := by
  induction i generalizing x with
  | zero => simp [powLoop, Nat.mod_one]
  | succ i ih =>
    rw [powLoop, ih, mod_two_pow_succ_testBit]
    have hx : ((x * x % m) ^ 2 ^ i) % m = x ^ 2 ^ (i + 1) % m := by
      rw [← Nat.pow_mod, ← pow_two, ← pow_mul, pow_succ, mul_comm 2]
    split
    · rename_i hb
      have hy : ((x * x % m * b % m) ^ 2 ^ i) % m = x ^ 2 ^ (i + 1) * b ^ 2 ^ i % m := by
        rw [← Nat.pow_mod, mul_pow, Nat.mul_mod, hx, ← Nat.mul_mod]
      rw [Nat.mul_mod, hy, ← Nat.mul_mod, pow_add]
      congr 1
      ring
    · simp only [Nat.add_zero]
      rw [Nat.mul_mod, hx, ← Nat.mul_mod]

/-- After at least one round the loop's value is reduced; after none it is x. -/
theorem powLoop_lt (b k i : Nat) {m x : Nat} (hm : 0 < m) (hx : x < m) : powLoop b k m i x < m := by
  induction i generalizing x with
  | zero => exact hx
  | succ i ih =>
    rw [powLoop]
    split
    · exact ih (Nat.mod_lt _ hm)
    · exact ih (Nat.mod_lt _ hm)

/-- The extended Euclid loop, with fuel enough for the product of its remainders: it returns their gcd, and a
coefficient of a for it modulo m, from remainders that have such coefficients. -/
theorem xgcdLoop_spec (a m : Int) :
    ∀ (fuel r0 r1 : Nat) (s0 s1 : Int), r1 ≤ r0 → r0 * r1 < 2 ^ fuel →
      m ∣ r0 - s0 * a → m ∣ r1 - s1 * a →
      (xgcdLoop fuel r0 r1 s0 s1).1 = Nat.gcd r0 r1 ∧
      m ∣ ((xgcdLoop fuel r0 r1 s0 s1).1 : Int) - (xgcdLoop fuel r0 r1 s0 s1).2 * a
  | 0, r0, r1, s0, s1, hle, hf, h0, _ => by
    have h : r1 = 0 := by
      rcases Nat.mul_eq_zero.1 (Nat.lt_one_iff.1 (by simpa using hf)) with h | h <;> omega
    subst h
    exact ⟨by simp [xgcdLoop], h0⟩
  | fuel + 1, r0, r1, s0, s1, hle, hf, h0, h1 => by
    rw [xgcdLoop]
    split
    · rename_i h
      subst h
      exact ⟨by simp, h0⟩
    · rename_i h
      have hpos : 0 < r1 := Nat.pos_of_ne_zero h
      have hdm := Nat.div_add_mod r0 r1
      have hlt := Nat.mod_lt r0 hpos
      have hq : 1 ≤ r0 / r1 := (Nat.one_le_div_iff hpos).2 hle
      have hhalf : 2 * (r0 % r1) ≤ r0 := by nlinarith
      have hf' : r1 * (r0 % r1) < 2 ^ fuel := by
        have : 2 * (r1 * (r0 % r1)) ≤ r0 * r1 := by nlinarith
        rw [pow_succ] at hf
        omega
      have h2 : m ∣ ((r0 % r1 : Nat) : Int) - (s0 - (r0 / r1 : Nat) * s1) * a := by
        have e : ((r0 % r1 : Nat) : Int) = r0 - (r0 / r1 : Nat) * r1 := by
          have := congrArg (Nat.cast : Nat → Int) hdm
          push_cast at this ⊢
          linarith
        have e2 : (r0 : Int) - (r0 / r1 : Nat) * r1 - (s0 - (r0 / r1 : Nat) * s1) * a =
            (r0 - s0 * a) - (r0 / r1 : Nat) * (r1 - s1 * a) := by ring
        rw [e, e2]
        exact dvd_sub h0 (dvd_mul_of_dvd_right h1 _)
      obtain ⟨g, hg⟩ := xgcdLoop_spec a m fuel r1 (r0 % r1) s1 _ hlt.le hf' h1 h2
      refine ⟨?_, hg⟩
      rw [g, Nat.gcd_comm r0 r1, Nat.gcd_comm r1 (r0 % r1), ← Nat.gcd_rec]

/-- The value of the extended Euclid loop's normalised coefficient is below m. -/
theorem xgcdInv_lt (a : Nat) {m : Nat} (hm : 0 < m) : (xgcdInv a m).2 < m := by
  have h : (0 : Int) < m := by exact_mod_cast hm
  have h1 := Int.emod_nonneg (xgcdLoop (2 * bitlen m + 1) m (a % m) 0 1).2 h.ne'
  have h2 := Int.emod_lt_of_pos (xgcdLoop (2 * bitlen m + 1) m (a % m) 0 1).2 h
  simp only [xgcdInv]
  omega

/-- One round of the radix-2 datapath keeps the accumulator below 2m, and doubling its result gives t plus bit i of a
times b, modulo the odd m. -/
theorem montRound_spec {a b m i t : Nat} (hm : m % 2 = 1) (hb : b < m) (ht : t < 2 * m) :
    montRound a b m i t < 2 * m ∧
    (2 * montRound a b m i t) % m = (t + (if a.testBit i then b else 0)) % m := by
  unfold montRound
  generalize hc : (if a.testBit i then b else 0) = c
  have hcb : c < m := by
    rw [← hc]
    split
    · exact hb
    · omega
  dsimp only
  split
  · refine ⟨by omega, ?_⟩
    have : 2 * ((t + c + m) / 2) = t + c + m := by omega
    rw [this, Nat.add_mod_right]
  · refine ⟨by omega, ?_⟩
    have : 2 * ((t + c) / 2) = t + c := by omega
    rw [this]

end Sys2Proof.Machine
end

