-- ==== Sys2Proof/Laws/State.lean ====
section
/-! SUPPORT. The field laws of the updates of Block, HostAgent and State: one lemma per field per update. -/

namespace Sys2Proof.Machine

/-! State.withBlk -/

@[simp] theorem State.withBlk_params (s : State) (b : Block) :
    (s.withBlk b).params = s.params := rfl
@[simp] theorem State.withBlk_blk (s : State) (b : Block) :
    (s.withBlk b).blk = b := rfl
@[simp] theorem State.withBlk_host (s : State) (b : Block) :
    (s.withBlk b).host = s.host := rfl
@[simp] theorem State.withBlk_turns (s : State) (b : Block) :
    (s.withBlk b).turns = s.turns := rfl
@[simp] theorem State.withBlk_draws (s : State) (b : Block) :
    (s.withBlk b).draws = s.draws := rfl

/-! State.withHost -/

@[simp] theorem State.withHost_params (s : State) (h : HostAgent) :
    (s.withHost h).params = s.params := rfl
@[simp] theorem State.withHost_blk (s : State) (h : HostAgent) :
    (s.withHost h).blk = s.blk := rfl
@[simp] theorem State.withHost_host (s : State) (h : HostAgent) :
    (s.withHost h).host = h := rfl
@[simp] theorem State.withHost_turns (s : State) (h : HostAgent) :
    (s.withHost h).turns = s.turns := rfl
@[simp] theorem State.withHost_draws (s : State) (h : HostAgent) :
    (s.withHost h).draws = s.draws := rfl

/-! State.drawn -/

@[simp] theorem State.drawn_params (s : State) :
    (s.drawn).params = s.params := rfl
@[simp] theorem State.drawn_blk (s : State) :
    (s.drawn).blk = s.blk := rfl
@[simp] theorem State.drawn_host (s : State) :
    (s.drawn).host = s.host := rfl
@[simp] theorem State.drawn_turns (s : State) :
    (s.drawn).turns = s.turns := rfl
@[simp] theorem State.drawn_draws (s : State) :
    (s.drawn).draws = s.draws + 1 := rfl

/-! State.popTurn -/

@[simp] theorem State.popTurn_params (s : State) :
    (s.popTurn).params = s.params := rfl
@[simp] theorem State.popTurn_blk (s : State) :
    (s.popTurn).blk = s.blk := rfl
@[simp] theorem State.popTurn_host (s : State) :
    (s.popTurn).host = s.host := rfl
@[simp] theorem State.popTurn_turns (s : State) :
    (s.popTurn).turns = s.turns.tail := rfl
@[simp] theorem State.popTurn_draws (s : State) :
    (s.popTurn).draws = s.draws := rfl

/-! State.setR and State.setG -/

@[simp] theorem State.setR_params (s : State) (v : Nat) :
    (s.setR v).params = s.params := rfl
@[simp] theorem State.setR_blk (s : State) (v : Nat) :
    (s.setR v).blk = s.blk.set .r v := rfl
@[simp] theorem State.setR_host (s : State) (v : Nat) :
    (s.setR v).host = s.host := rfl
@[simp] theorem State.setR_turns (s : State) (v : Nat) :
    (s.setR v).turns = s.turns := rfl
@[simp] theorem State.setR_draws (s : State) (v : Nat) :
    (s.setR v).draws = s.draws := rfl

@[simp] theorem State.setG_params (s : State) (v : Nat) :
    (s.setG v).params = s.params := rfl
@[simp] theorem State.setG_blk (s : State) (v : Nat) :
    (s.setG v).blk = s.blk.set .g v := rfl
@[simp] theorem State.setG_host (s : State) (v : Nat) :
    (s.setG v).host = s.host := rfl
@[simp] theorem State.setG_turns (s : State) (v : Nat) :
    (s.setG v).turns = s.turns := rfl
@[simp] theorem State.setG_draws (s : State) (v : Nat) :
    (s.setG v).draws = s.draws := rfl

/-! HostAgent.withScript -/

@[simp] theorem HostAgent.withScript_script (h : HostAgent) (l : List Stmt) :
    (h.withScript l).script = l := rfl
@[simp] theorem HostAgent.withScript_vars (h : HostAgent) (l : List Stmt) :
    (h.withScript l).vars = h.vars := rfl
@[simp] theorem HostAgent.withScript_aborted (h : HostAgent) (l : List Stmt) :
    (h.withScript l).aborted = h.aborted := rfl

/-! HostAgent.push -/

@[simp] theorem HostAgent.push_script (h : HostAgent) (st : Stmt) :
    (h.push st).script = st :: h.script := rfl
@[simp] theorem HostAgent.push_vars (h : HostAgent) (st : Stmt) :
    (h.push st).vars = h.vars := rfl
@[simp] theorem HostAgent.push_aborted (h : HostAgent) (st : Stmt) :
    (h.push st).aborted = h.aborted := rfl

/-! HostAgent.bind -/

@[simp] theorem HostAgent.bind_script (h : HostAgent) (name : Name) (v : Nat) :
    (h.bind name v).script = h.script := rfl
@[simp] theorem HostAgent.bind_vars (h : HostAgent) (name : Name) (v : Nat) :
    (h.bind name v).vars = (name, v) :: h.vars := rfl
@[simp] theorem HostAgent.bind_aborted (h : HostAgent) (name : Name) (v : Nat) :
    (h.bind name v).aborted = h.aborted := rfl

/-! HostAgent.abort -/

@[simp] theorem HostAgent.abort_script (h : HostAgent) :
    (h.abort).script = [] := rfl
@[simp] theorem HostAgent.abort_vars (h : HostAgent) :
    (h.abort).vars = h.vars := rfl
@[simp] theorem HostAgent.abort_aborted (h : HostAgent) :
    (h.abort).aborted = true := rfl

/-! Block.commit -/

@[simp] theorem Block.commit_A (b : Block) (c : ErrCode) :
    (b.commit c).A = b.A := rfl
@[simp] theorem Block.commit_B (b : Block) (c : ErrCode) :
    (b.commit c).B = b.B := rfl
@[simp] theorem Block.commit_E (b : Block) (c : ErrCode) :
    (b.commit c).E = b.E := rfl
@[simp] theorem Block.commit_N (b : Block) (c : ErrCode) :
    (b.commit c).N = b.N := rfl
@[simp] theorem Block.commit_R (b : Block) (c : ErrCode) :
    (b.commit c).R = b.R := rfl
@[simp] theorem Block.commit_G (b : Block) (c : ErrCode) :
    (b.commit c).G = b.G := rfl
@[simp] theorem Block.commit_irqEn (b : Block) (c : ErrCode) :
    (b.commit c).irqEn = b.irqEn := rfl
@[simp] theorem Block.commit_cmd (b : Block) (c : ErrCode) :
    (b.commit c).cmd = b.cmd := rfl
@[simp] theorem Block.commit_busy (b : Block) (c : ErrCode) :
    (b.commit c).busy = false := rfl
@[simp] theorem Block.commit_done (b : Block) (c : ErrCode) :
    (b.commit c).done = true := rfl
@[simp] theorem Block.commit_overrun (b : Block) (c : ErrCode) :
    (b.commit c).overrun = b.overrun := rfl
@[simp] theorem Block.commit_errcode (b : Block) (c : ErrCode) :
    (b.commit c).errcode = c.code := rfl

/-! Block.acceptCommand -/

@[simp] theorem Block.acceptCommand_A (b : Block) (v : Word) :
    (b.acceptCommand v).A = b.A := rfl
@[simp] theorem Block.acceptCommand_B (b : Block) (v : Word) :
    (b.acceptCommand v).B = b.B := rfl
@[simp] theorem Block.acceptCommand_E (b : Block) (v : Word) :
    (b.acceptCommand v).E = b.E := rfl
@[simp] theorem Block.acceptCommand_N (b : Block) (v : Word) :
    (b.acceptCommand v).N = b.N := rfl
@[simp] theorem Block.acceptCommand_R (b : Block) (v : Word) :
    (b.acceptCommand v).R = b.R := rfl
@[simp] theorem Block.acceptCommand_G (b : Block) (v : Word) :
    (b.acceptCommand v).G = b.G := rfl
@[simp] theorem Block.acceptCommand_irqEn (b : Block) (v : Word) :
    (b.acceptCommand v).irqEn = b.irqEn := rfl
@[simp] theorem Block.acceptCommand_cmd (b : Block) (v : Word) :
    (b.acceptCommand v).cmd = v := rfl
@[simp] theorem Block.acceptCommand_busy (b : Block) (v : Word) :
    (b.acceptCommand v).busy = true := rfl
@[simp] theorem Block.acceptCommand_done (b : Block) (v : Word) :
    (b.acceptCommand v).done = false := rfl
@[simp] theorem Block.acceptCommand_overrun (b : Block) (v : Word) :
    (b.acceptCommand v).overrun = b.overrun := rfl
@[simp] theorem Block.acceptCommand_errcode (b : Block) (v : Word) :
    (b.acceptCommand v).errcode = 0 := rfl

/-! Block.dropWrite -/

@[simp] theorem Block.dropWrite_A (b : Block) :
    (b.dropWrite).A = b.A := rfl
@[simp] theorem Block.dropWrite_B (b : Block) :
    (b.dropWrite).B = b.B := rfl
@[simp] theorem Block.dropWrite_E (b : Block) :
    (b.dropWrite).E = b.E := rfl
@[simp] theorem Block.dropWrite_N (b : Block) :
    (b.dropWrite).N = b.N := rfl
@[simp] theorem Block.dropWrite_R (b : Block) :
    (b.dropWrite).R = b.R := rfl
@[simp] theorem Block.dropWrite_G (b : Block) :
    (b.dropWrite).G = b.G := rfl
@[simp] theorem Block.dropWrite_irqEn (b : Block) :
    (b.dropWrite).irqEn = b.irqEn := rfl
@[simp] theorem Block.dropWrite_cmd (b : Block) :
    (b.dropWrite).cmd = b.cmd := rfl
@[simp] theorem Block.dropWrite_busy (b : Block) :
    (b.dropWrite).busy = b.busy := rfl
@[simp] theorem Block.dropWrite_done (b : Block) :
    (b.dropWrite).done = b.done := rfl
@[simp] theorem Block.dropWrite_overrun (b : Block) :
    (b.dropWrite).overrun = true := rfl
@[simp] theorem Block.dropWrite_errcode (b : Block) :
    (b.dropWrite).errcode = b.errcode := rfl

/-! Block.writeStatus -/

@[simp] theorem Block.writeStatus_A (b : Block) (v : Word) :
    (b.writeStatus v).A = b.A := rfl
@[simp] theorem Block.writeStatus_B (b : Block) (v : Word) :
    (b.writeStatus v).B = b.B := rfl
@[simp] theorem Block.writeStatus_E (b : Block) (v : Word) :
    (b.writeStatus v).E = b.E := rfl
@[simp] theorem Block.writeStatus_N (b : Block) (v : Word) :
    (b.writeStatus v).N = b.N := rfl
@[simp] theorem Block.writeStatus_R (b : Block) (v : Word) :
    (b.writeStatus v).R = b.R := rfl
@[simp] theorem Block.writeStatus_G (b : Block) (v : Word) :
    (b.writeStatus v).G = b.G := rfl
@[simp] theorem Block.writeStatus_irqEn (b : Block) (v : Word) :
    (b.writeStatus v).irqEn = b.irqEn := rfl
@[simp] theorem Block.writeStatus_cmd (b : Block) (v : Word) :
    (b.writeStatus v).cmd = b.cmd := rfl
@[simp] theorem Block.writeStatus_busy (b : Block) (v : Word) :
    (b.writeStatus v).busy = b.busy := rfl
@[simp] theorem Block.writeStatus_done (b : Block) (v : Word) :
    (b.writeStatus v).done = (b.done && !v.getLsbD 1) := rfl
@[simp] theorem Block.writeStatus_overrun (b : Block) (v : Word) :
    (b.writeStatus v).overrun = (b.overrun && !v.getLsbD 3) := rfl
@[simp] theorem Block.writeStatus_errcode (b : Block) (v : Word) :
    (b.writeStatus v).errcode = b.errcode := rfl

/-! Block.set: the register named, and the fields that are no operand register. -/

@[simp] theorem Block.get_set_self (b : Block) (x : Operand) (v : Nat) : (b.set x v).get x = v := by
  cases x <;> rfl
theorem Block.get_set_ne (b : Block) (x y : Operand) (v : Nat) (h : y ≠ x) :
    (b.set x v).get y = b.get y := by
  cases x <;> cases y <;> first | rfl | exact absurd rfl h
theorem Block.set_set (b : Block) (x : Operand) (v w : Nat) : (b.set x v).set x w = b.set x w := by
  cases x <;> rfl
theorem Block.set_get (b : Block) (x : Operand) : b.set x (b.get x) = b := by
  cases x <;> rfl
@[simp] theorem Block.set_irqEn (b : Block) (x : Operand) (v : Nat) :
    (b.set x v).irqEn = b.irqEn := by cases x <;> rfl
@[simp] theorem Block.set_cmd (b : Block) (x : Operand) (v : Nat) :
    (b.set x v).cmd = b.cmd := by cases x <;> rfl
@[simp] theorem Block.set_busy (b : Block) (x : Operand) (v : Nat) :
    (b.set x v).busy = b.busy := by cases x <;> rfl
@[simp] theorem Block.set_done (b : Block) (x : Operand) (v : Nat) :
    (b.set x v).done = b.done := by cases x <;> rfl
@[simp] theorem Block.set_overrun (b : Block) (x : Operand) (v : Nat) :
    (b.set x v).overrun = b.overrun := by cases x <;> rfl
@[simp] theorem Block.set_errcode (b : Block) (x : Operand) (v : Nat) :
    (b.set x v).errcode = b.errcode := by cases x <;> rfl

/-! Updates that meet. -/

@[simp] theorem State.withBlk_withBlk (s : State) (b c : Block) : (s.withBlk b).withBlk c = s.withBlk c := rfl
@[simp] theorem State.withBlk_blk_self (s : State) : s.withBlk s.blk = s := rfl
@[simp] theorem State.withHost_host_self (s : State) : s.withHost s.host = s := rfl
@[simp] theorem State.popTurn_withBlk (s : State) (b : Block) : (s.withBlk b).popTurn = s.popTurn.withBlk b := rfl

/-- With no turn listed, taking the next turn off changes nothing. -/
theorem State.popTurn_of_nil (s : State) (h : s.turns = []) : s.popTurn = s := by
  cases s; cases h; rfl

end Sys2Proof.Machine
end

