-- ==== Sys2Proof/Laws/Window.lean ====
section
/-! SUPPORT. The operand registers word by word, and the register window: what each access does, said once
(10_state.md R22, R23, R26 to R28; 20_memory.md R60 to R68). -/

namespace Sys2Proof.Machine

/-! Words of an operand (20_memory.md R66). -/

/-- Bit j of word k is bit 32k + j of the operand. -/
theorem getLsbD_wordOf (v k j : Nat) : (wordOf v k).getLsbD j = (decide (j < 32) && v.testBit (32 * k + j)) := by
  simp [wordOf, BitVec.getLsbD_ofNat, Nat.testBit_div_two_pow, Nat.add_comm]

/-- Word k as a number. -/
theorem toNat_wordOf (v k : Nat) : (wordOf v k).toNat = v / 2 ^ (32 * k) % 2 ^ 32 := by
  simp [wordOf]

/-- Adding word k to the k words below it gives the k + 1 lowest words (30_encoding.md R81, R87). -/
theorem lowWords_add_word (v k : Nat) :
    v % 2 ^ (32 * k) + v / 2 ^ (32 * k) % 2 ^ 32 * 2 ^ (32 * k) = v % 2 ^ (32 * (k + 1)) := by
  rw [Nat.mul_succ, Nat.pow_add, Nat.mod_mul, Nat.mul_comm (2 ^ (32 * k))]

/-- The bits of a value whose word k is replaced (10_state.md R22). -/
theorem testBit_replaceWord (v k : Nat) (w : Word) (j : Nat) :
    (replaceWord v k w).testBit j =
      if 32 * k ≤ j ∧ j < 32 * k + 32 then w.getLsbD (j - 32 * k) else v.testBit j := by
  have hw : w.toNat < 2 ^ 32 := w.isLt
  rw [replaceWord, Nat.add_comm, Nat.testBit_two_pow_mul_add _ (Nat.mod_lt _ (Nat.two_pow_pos _))]
  by_cases h1 : j < 32 * k
  · simp [h1, Nat.testBit_mod_two_pow, Nat.not_le.2 h1]
  · rw [if_neg h1, Nat.add_comm w.toNat, Nat.testBit_two_pow_mul_add _ hw]
    by_cases h2 : j < 32 * k + 32
    · rw [if_pos (by omega), if_pos ⟨by omega, h2⟩]
      rfl
    · rw [if_neg (by omega), if_neg (by omega), Nat.testBit_div_two_pow]
      congr 1
      omega

/-- The word just written is the word read. -/
@[simp] theorem wordOf_replaceWord_self (v k : Nat) (w : Word) : wordOf (replaceWord v k w) k = w := by
  apply BitVec.eq_of_getLsbD_eq
  intro j hj
  rw [getLsbD_wordOf, testBit_replaceWord, if_pos ⟨by omega, by omega⟩]
  simp [hj]

/-- Every other word is as before. -/
theorem wordOf_replaceWord_ne (v : Nat) {k l : Nat} (w : Word) (h : l ≠ k) :
    wordOf (replaceWord v k w) l = wordOf v l := by
  apply BitVec.eq_of_getLsbD_eq
  intro j hj
  rw [getLsbD_wordOf, getLsbD_wordOf, testBit_replaceWord, if_neg (by omega)]

/-- Replacing a word below width n keeps a value below 2^n. -/
theorem replaceWord_lt {v k n : Nat} (w : Word) (hv : v < 2 ^ n) (hk : 32 * k + 32 ≤ n) :
    replaceWord v k w < 2 ^ n := by
  apply Nat.lt_pow_two_of_testBit
  intro j hj
  rw [testBit_replaceWord, if_neg (by omega)]
  exact Nat.testBit_lt_two_pow (lt_of_lt_of_le hv (Nat.pow_le_pow_right (by decide) hj))

/-! Where an offset leads (20_memory.md R60, R63). -/

/-- Word k of X's window is found at WIN(X) + 4k. -/
@[simp] theorem locate_win (x : Operand) {k : Nat} (hk : k < 256) : locate (win x + 4 * k) = .operand x k := by
  have hd : (win x + 4 * k) / 0x400 = win x / 0x400 := by cases x <;> simp only [win] <;> omega
  have hm : (win x + 4 * k) % 0x400 / 4 = k := by cases x <;> simp only [win] <;> omega
  have h0 : ∀ n, n < 0x400 → win x + 4 * k ≠ n := by cases x <;> simp only [win] <;> omega
  unfold locate
  rw [if_neg (h0 _ (by decide)), if_neg (h0 _ (by decide)), if_neg (h0 _ (by decide)),
    if_neg (h0 _ (by decide)), if_neg (h0 _ (by decide)), hd, hm]
  cases x <;> rfl

/-- The whole map, read backwards: what each location says of its offset. -/
theorem locate_inv {off : Nat} (ha : off % 4 = 0) :
    match locate off with
    | .id          => off = 0x000
    | .param       => off = 0x004
    | .ctrl        => off = 0x008
    | .cmd         => off = 0x00C
    | .status      => off = 0x010
    | .operand x k => k < 256 ∧ off = win x + 4 * k
    | .reserved    => True := by
  unfold locate
  by_cases h0 : off = 0x000
  · rw [if_pos h0]; exact h0
  by_cases h1 : off = 0x004
  · rw [if_neg h0, if_pos h1]; exact h1
  by_cases h2 : off = 0x008
  · rw [if_neg h0, if_neg h1, if_pos h2]; exact h2
  by_cases h3 : off = 0x00C
  · rw [if_neg h0, if_neg h1, if_neg h2, if_pos h3]; exact h3
  by_cases h4 : off = 0x010
  · rw [if_neg h0, if_neg h1, if_neg h2, if_neg h3, if_pos h4]; exact h4
  rw [if_neg h0, if_neg h1, if_neg h2, if_neg h3, if_neg h4]
  generalize hq : off / 0x400 = q
  match q, hq with
  | 0, _ => trivial
  | 1, _ => exact ⟨by omega, by simp only [win]; omega⟩
  | 2, _ => exact ⟨by omega, by simp only [win]; omega⟩
  | 3, _ => exact ⟨by omega, by simp only [win]; omega⟩
  | 4, _ => exact ⟨by omega, by simp only [win]; omega⟩
  | 5, _ => exact ⟨by omega, by simp only [win]; omega⟩
  | 6, _ => exact ⟨by omega, by simp only [win]; omega⟩
  | _ + 7, _ => trivial

@[simp] theorem locate_id : locate 0x000 = .id := rfl
@[simp] theorem locate_param : locate 0x004 = .param := rfl
@[simp] theorem locate_ctrl : locate 0x008 = .ctrl := rfl
@[simp] theorem locate_cmd : locate 0x00C = .cmd := rfl
@[simp] theorem locate_status : locate 0x010 = .status := rfl

/-! STATUS and PARAM as read (10_state.md R25, R27). -/

@[simp] theorem Block.statusWord_bit0 (b : Block) : b.statusWord[0] = b.busy := by
  unfold Block.statusWord Block.err
  generalize b.busy = b0
  generalize b.done = b1
  generalize b.overrun = b3
  generalize b.errcode = e
  revert b0 b1 b3 e
  decide

/-- Bits [11:8] of STATUS are ERRCODE. -/
@[simp] theorem Block.statusWord_errcode (b : Block) : (b.statusWord.extractLsb' 8 4).toNat = b.errcode.val := by
  unfold Block.statusWord Block.err
  generalize b.busy = b0
  generalize b.done = b1
  generalize b.overrun = b3
  generalize b.errcode = e
  revert b0 b1 b3 e
  decide

/-- PARAM holds NW in its low half. -/
theorem paramWord_toNat {nw : Nat} (h : nw < 2 ^ 16) : (paramWord nw).toNat = nw := by
  show ((0#16 ++ BitVec.ofNat 16 nw : BitVec (16 + 16))).toNat = nw
  rw [BitVec.toNat_append]
  simp only [BitVec.toNat_ofNat, Nat.zero_mod, Nat.zero_shiftLeft, Nat.zero_or]
  exact Nat.mod_eq_of_lt h

/-! Reads (20_memory.md R64, R70). -/

/-- A read that is specified answers the window's word and changes nothing. -/
theorem memRead_of_some {s : State} {off : Nat} {v : Word} (h : s.blk.windowRead s.params.nw off = some v) :
    memRead s off = (v, s) := by
  simp [memRead, h]

/-- A read that is not specified answers the next free value and counts it. -/
theorem memRead_of_none {s : State} {off : Nat} (h : s.blk.windowRead s.params.nw off = none) :
    memRead s off = (Config.freeWord s.draws, s.drawn) := by
  simp [memRead, h]

/-- Everything a read can do to the state. -/
theorem memRead_state (s : State) (off : Nat) : (memRead s off).2 = s ∨ (memRead s off).2 = s.drawn := by
  unfold memRead
  split
  · exact .inl rfl
  · exact .inr rfl

@[simp] theorem memRead_blk (s : State) (off : Nat) : (memRead s off).2.blk = s.blk := by
  rcases memRead_state s off with h | h <;> simp [h]
@[simp] theorem memRead_params (s : State) (off : Nat) : (memRead s off).2.params = s.params := by
  rcases memRead_state s off with h | h <;> simp [h]
@[simp] theorem memRead_host (s : State) (off : Nat) : (memRead s off).2.host = s.host := by
  rcases memRead_state s off with h | h <;> simp [h]
@[simp] theorem memRead_turns (s : State) (off : Nat) : (memRead s off).2.turns = s.turns := by
  rcases memRead_state s off with h | h <;> simp [h]

/-- An operand read is unspecified only for R and G, below NW, while BUSY (10_state.md R23). -/
theorem Block.readOperand_eq_none {b : Block} {nw : Nat} {x : Operand} {k : Nat} :
    b.readOperand nw x k = none ↔ k < nw ∧ x.hostWritable = false ∧ b.busy = true := by
  unfold Block.readOperand
  split_ifs <;> simp_all

/-! Writes (20_memory.md R65). -/

/-- Everything a write to the window can do to the block. -/
theorem Block.windowWrite_cases (b : Block) (nw : Nat) {off : Nat} (v : Word) (ha : off % 4 = 0) :
    b.windowWrite nw off v = b ∨
    (off = 0x008 ∧ b.windowWrite nw off v = b.writeCtrl v) ∨
    (off = 0x00C ∧ b.windowWrite nw off v = b.writeCmd v) ∨
    (off = 0x010 ∧ b.windowWrite nw off v = b.writeStatus v) ∨
    (∃ x k, off = win x + 4 * k ∧ k < 256 ∧ x.hostWritable = true ∧ b.busy = true ∧
      b.windowWrite nw off v = b.dropWrite) ∨
    (∃ x k, off = win x + 4 * k ∧ k < 256 ∧ x.hostWritable = true ∧ b.busy = false ∧ k < nw ∧
      b.windowWrite nw off v = b.set x (replaceWord (b.get x) k v)) := by
  have h := locate_inv ha
  unfold Block.windowWrite
  cases hl : locate off with
  | id => exact .inl rfl
  | param => exact .inl rfl
  | ctrl => simp only [hl] at h; exact .inr (.inl ⟨h, rfl⟩)
  | cmd => simp only [hl] at h; exact .inr (.inr (.inl ⟨h, rfl⟩))
  | status => simp only [hl] at h; exact .inr (.inr (.inr (.inl ⟨h, rfl⟩)))
  | reserved => exact .inl rfl
  | operand x k =>
    simp only [hl] at h
    obtain ⟨hk, ho⟩ := h
    simp only [Block.writeOperand]
    by_cases hx : x.hostWritable = false
    · exact .inl (by rw [if_pos hx])
    · rw [if_neg hx]
      by_cases hb : b.busy = true
      · rw [if_pos hb]
        exact .inr (.inr (.inr (.inr (.inl ⟨x, k, ho, hk, by simpa using hx, hb, rfl⟩))))
      · rw [if_neg hb]
        by_cases hn : nw ≤ k
        · exact .inl (by rw [if_pos hn])
        · rw [if_neg hn]
          exact .inr (.inr (.inr (.inr (.inr
            ⟨x, k, ho, hk, by simpa using hx, by simpa using hb, by omega, rfl⟩))))

@[simp] theorem memWrite_params (s : State) (off : Nat) (v : Word) : (memWrite s off v).params = s.params := rfl
@[simp] theorem memWrite_host (s : State) (off : Nat) (v : Word) : (memWrite s off v).host = s.host := rfl
@[simp] theorem memWrite_turns (s : State) (off : Nat) (v : Word) : (memWrite s off v).turns = s.turns := rfl
@[simp] theorem memWrite_draws (s : State) (off : Nat) (v : Word) : (memWrite s off v).draws = s.draws := rfl
@[simp] theorem memWrite_blk (s : State) (off : Nat) (v : Word) :
    (memWrite s off v).blk = s.blk.windowWrite s.params.nw off v := rfl

/-! Bus accesses (20_memory.md R62, R68). -/

/-- An access at BASE + off is answered exactly when it is 32 bits wide, aligned, and in the window. -/
theorem accessProblem_eq_none {p : Params} {addr width : Nat} :
    accessProblem p addr width = none ↔
      width = 32 ∧ ∃ off, addr = p.base + off ∧ off < 0x2000 ∧ off % 4 = 0 := by
  unfold accessProblem
  split_ifs with h1 h2
  · simp only [false_iff, not_and, not_exists]
    omega
  · simp only [false_iff, not_and, not_exists]
    intro hw off ho _
    subst ho
    rw [Nat.add_sub_cancel_left] at h2
    tauto
  · simp only [true_iff]
    exact ⟨by tauto, addr - p.base, by omega, by omega, by tauto⟩

/-- An access in the window that is defined has no problem. -/
@[simp] theorem accessProblem_base_add (p : Params) {off : Nat} (h : off < 0x2000) (ha : off % 4 = 0) :
    accessProblem p (p.base + off) 32 = none :=
  accessProblem_eq_none.2 ⟨rfl, off, rfl, h, ha⟩

/-- Everything an answered access can do. -/
theorem busAccess_ok {s s' : State} {q : Request} {w : Word} (h : busAccess s q = .ok (w, s')) :
    ∃ off, off < 0x2000 ∧ off % 4 = 0 ∧
      ((q = .read (s.params.base + off) 32 ∧ (w, s') = memRead s off) ∨
       (∃ v, q = .write (s.params.base + off) 32 v ∧ w = 0#32 ∧ s' = memWrite s off v)) := by
  cases q with
  | read addr width =>
    simp only [busAccess] at h
    split at h
    · cases h
    · rename_i hp
      obtain ⟨rfl, off, rfl, ho, ha⟩ := accessProblem_eq_none.1 hp
      simp only [Nat.add_sub_cancel_left, Except.ok.injEq] at h
      exact ⟨off, ho, ha, .inl ⟨rfl, h.symm⟩⟩
  | write addr width v =>
    simp only [busAccess] at h
    split at h
    · cases h
    · rename_i hp
      obtain ⟨rfl, off, rfl, ho, ha⟩ := accessProblem_eq_none.1 hp
      simp only [Nat.add_sub_cancel_left, Except.ok.injEq, Prod.mk.injEq] at h
      exact ⟨off, ho, ha, .inr ⟨v, rfl, h.1.symm, h.2.symm⟩⟩

@[simp] theorem busAccess_read (s : State) {off : Nat} (h : off < 0x2000) (ha : off % 4 = 0) :
    busAccess s (.read (s.params.base + off) 32) = .ok (memRead s off) := by
  simp [busAccess, h, ha]

@[simp] theorem busAccess_write (s : State) {off : Nat} (v : Word) (h : off < 0x2000) (ha : off % 4 = 0) :
    busAccess s (.write (s.params.base + off) 32 v) = .ok (0#32, memWrite s off v) := by
  simp [busAccess, h, ha]

end Sys2Proof.Machine
end

