-- ==== Sys2Proof/Laws/Commands.lean ====
section
/-! SUPPORT. What a command, the engine, the host and a step can do, said once: the lemmas that later proofs cite
instead of unfolding the machine (60_exceptions.md R203, R204; 20_memory.md R73). -/

namespace Sys2Proof.Machine

/-- A command always completes, by writing R, G and the three STATUS fields and nothing else (60_exceptions.md R200,
R204). An error leaves R as it was, and only GCD and MODINV write G. -/
theorem exec_next (i : Instr) (s : State) :
    ∃ r g c, exec i s = .next (s.withBlk (((s.blk.set .r r).set .g g).commit c)) ∧
      (c ≠ .ok ∨ i = .nop → r = s.blk.R) ∧ (i ≠ .gcd → i ≠ .modinv → g = s.blk.G) := by
  cases i
  case nop => exact ⟨s.blk.R, s.blk.G, .ok, rfl, fun _ => rfl, fun _ _ => rfl⟩
  case gcd => exact ⟨_, _, .ok, rfl, by simp, by simp⟩
  case bitlen => exact ⟨bitlen s.blk.A, s.blk.G, .ok, rfl, by simp, fun _ _ => rfl⟩
  case modmul =>
    simp only [exec, execModmul]
    split_ifs
    · exact ⟨s.blk.R, s.blk.G, .zeroModulus, rfl, fun _ => rfl, fun _ _ => rfl⟩
    · exact ⟨mulMod s.blk.A s.blk.B s.blk.N, s.blk.G, .ok, rfl, by simp, fun _ _ => rfl⟩
  case montmul =>
    simp only [exec, execMontmul]
    split_ifs
    · exact ⟨s.blk.R, s.blk.G, .zeroModulus, rfl, fun _ => rfl, fun _ _ => rfl⟩
    · exact ⟨s.blk.R, s.blk.G, .evenModulus, rfl, fun _ => rfl, fun _ _ => rfl⟩
    · exact ⟨s.blk.R, s.blk.G, .operandRange, rfl, fun _ => rfl, fun _ _ => rfl⟩
    · exact ⟨montMul s.params.opw s.blk.A s.blk.B s.blk.N, s.blk.G, .ok, rfl, by simp, fun _ _ => rfl⟩
  case tomont =>
    simp only [exec, execTomont]
    split_ifs
    · exact ⟨s.blk.R, s.blk.G, .zeroModulus, rfl, fun _ => rfl, fun _ _ => rfl⟩
    · exact ⟨s.blk.R, s.blk.G, .evenModulus, rfl, fun _ => rfl, fun _ _ => rfl⟩
    · exact ⟨mulMod s.blk.A (2 ^ s.params.opw) s.blk.N, s.blk.G, .ok, rfl, by simp, fun _ _ => rfl⟩
  case frommont =>
    simp only [exec, execFrommont]
    split_ifs
    · exact ⟨s.blk.R, s.blk.G, .zeroModulus, rfl, fun _ => rfl, fun _ _ => rfl⟩
    · exact ⟨s.blk.R, s.blk.G, .evenModulus, rfl, fun _ => rfl, fun _ _ => rfl⟩
    · exact ⟨s.blk.R, s.blk.G, .operandRange, rfl, fun _ => rfl, fun _ _ => rfl⟩
    · exact ⟨montMul s.params.opw s.blk.A 1 s.blk.N, s.blk.G, .ok, rfl, by simp, fun _ _ => rfl⟩
  case modexp =>
    simp only [exec, execModexp]
    split_ifs
    · exact ⟨s.blk.R, s.blk.G, .zeroModulus, rfl, fun _ => rfl, fun _ _ => rfl⟩
    · exact ⟨powMod s.blk.A s.blk.E s.blk.N, s.blk.G, .ok, rfl, by simp, fun _ _ => rfl⟩
  case modinv =>
    simp only [exec, execModinv]
    split_ifs
    · exact ⟨s.blk.R, s.blk.G, .zeroModulus, rfl, fun _ => rfl, fun _ _ => rfl⟩
    · exact ⟨s.blk.R, _, .notInvertible, rfl, fun _ => rfl, by simp⟩
    · exact ⟨_, _, .ok, rfl, by simp, by simp⟩

/-- The gcd of two values below a bound is below it. -/
theorem gcd_lt {a b m : Nat} (ha : a < m) (hb : b < m) : Nat.gcd a b < m := by
  rcases Nat.eq_zero_or_pos a with rfl | h
  · rwa [Nat.gcd_zero_left]
  · exact lt_of_le_of_lt (Nat.gcd_le_left _ h) ha

/-- The values a command writes fit in the operand registers if its operands do: a residue is below N, a gcd below its
arguments, a bit length at most OPW. -/
theorem exec_fits {w : Nat} {i : Instr} {s t : State} (hf : s.blk.Fits w) (h : exec i s = .next t) :
    t.blk.Fits w := by
  obtain ⟨hA, hB, hE, hN, hR, hG⟩ := hf
  have old : ∀ c, (s.withBlk (s.blk.commit c)).blk.Fits w := fun _ => ⟨hA, hB, hE, hN, hR, hG⟩
  have newR : ∀ v c, v < 2 ^ w → ((s.setR v).withBlk ((s.setR v).blk.commit c)).blk.Fits w :=
    fun _ _ hv => ⟨hA, hB, hE, hN, hv, hG⟩
  have residue : ∀ v m, m ≠ 0 → m < 2 ^ w → v % m < 2 ^ w :=
    fun _ _ h0 hm => lt_trans (Nat.mod_lt _ (Nat.pos_of_ne_zero h0)) hm
  cases i
  case nop => cases h; exact old .ok
  case gcd => cases h; exact ⟨hA, hB, hE, hN, gcd_lt hA hB, gcd_lt hA hB⟩
  case bitlen => cases h; exact newR _ .ok (lt_of_le_of_lt (bitlen_le_of_lt hA) Nat.lt_two_pow_self)
  case modmul =>
    simp only [exec, execModmul] at h
    split_ifs at h with h0
    · cases h; exact old _
    · cases h; exact newR _ .ok (residue _ _ h0 hN)
  case montmul =>
    simp only [exec, execMontmul] at h
    split_ifs at h with h0
    · cases h; exact old _
    · cases h; exact old _
    · cases h; exact old _
    · cases h; exact newR _ .ok (residue _ _ h0 hN)
  case tomont =>
    simp only [exec, execTomont] at h
    split_ifs at h with h0
    · cases h; exact old _
    · cases h; exact old _
    · cases h; exact newR _ .ok (residue _ _ h0 hN)
  case frommont =>
    simp only [exec, execFrommont] at h
    split_ifs at h with h0
    · cases h; exact old _
    · cases h; exact old _
    · cases h; exact old _
    · cases h; exact newR _ .ok (residue _ _ h0 hN)
  case modexp =>
    simp only [exec, execModexp] at h
    split_ifs at h with h0
    · cases h; exact old _
    · cases h
      have hp : 0 < s.blk.N := Nat.pos_of_ne_zero h0
      exact newR _ .ok (lt_trans (powLoop_lt _ _ _ hp (Nat.mod_lt _ hp)) hN)
  case modinv =>
    simp only [exec, execModinv] at h
    split_ifs at h with h0 h1
    · cases h; exact old _
    · cases h; exact ⟨hA, hB, hE, hN, hR, gcd_lt hA hN⟩
    · cases h
      exact ⟨hA, hB, hE, hN, lt_trans (xgcdInv_lt _ (Nat.pos_of_ne_zero h0)) hN, gcd_lt hA hN⟩

/-- The codes are 0 to 5 (60_exceptions.md R201). -/
theorem ErrCode.code_le (c : ErrCode) : c.code.val ≤ 5 := by cases c <;> decide

/-- With BUSY = 0 the engine's step is not enabled (60_exceptions.md R204). -/
theorem engineStep_idle {s : State} (h : s.blk.busy = false) : engineStep s = .next s := by
  simp [engineStep, h]

/-- A legal word in flight: the engine's step is the command's. -/
theorem engineStep_exec {s : State} {i : Instr} (hb : s.blk.busy = true) (hd : decode s.blk.cmd = .ok i) :
    engineStep s = exec i s := by
  simp [engineStep, hb, hd]

/-- An illegal word in flight (40_control.md R101). -/
theorem engineStep_illegal {s : State} {e : DecodeError} (hb : s.blk.busy = true)
    (hd : decode s.blk.cmd = .error e) : engineStep s = .next (s.withBlk (s.blk.commit .illegalCmd)) := by
  simp [engineStep, hb, hd, execIllegal, raiseError]

/-- Everything the engine's step can do with BUSY = 1. -/
theorem engineStep_busy {s : State} (hb : s.blk.busy = true) :
    ∃ r g c, engineStep s = .next (s.withBlk (((s.blk.set .r r).set .g g).commit c)) := by
  cases hd : decode s.blk.cmd with
  | ok i =>
    obtain ⟨r, g, c, h, -⟩ := exec_next i s
    exact ⟨r, g, c, (engineStep_exec hb hd).trans h⟩
  | error e => exact ⟨s.blk.R, s.blk.G, .illegalCmd, engineStep_illegal hb hd⟩

/-- A statement only adds bindings, and only WAITOK's failed assertion aborts (30_encoding.md R86, R87). -/
theorem Stmt.resume_host (nw : Nat) (v : Word) (h : HostAgent) (st : Stmt) :
    (∃ l, (st.resume nw v h).vars = l ++ h.vars) ∧
    ((st.resume nw v h).aborted = h.aborted ∨ (st = .waitok ∧ st.resume nw v h = (h.bind .s v.toNat).abort)) := by
  constructor
  · cases st <;> simp only [Stmt.resume] <;> (repeat' split) <;>
      first | exact ⟨[], rfl⟩ | exact ⟨[_], rfl⟩ | exact ⟨[_, _], rfl⟩
  · cases st <;> simp only [Stmt.resume] <;> (repeat' split) <;> simp

/-- Everything the host's step can do when it is answered: nothing, when the script has ended; else the access of its
first statement, one write or one read of a defined offset. -/
theorem hostStep_next {s t : State} (h : hostStep s = .next t) :
    (s.host.script = [] ∧ t = s) ∨
    ∃ st rest off, s.host.script = st :: rest ∧ off < 0x2000 ∧ off % 4 = 0 ∧
      ((∃ v, st.request s.params = .write (s.params.base + off) 32 v ∧
          t = (memWrite s off v).withHost (st.resume s.params.nw 0#32 (s.host.withScript rest))) ∨
       (st.request s.params = .read (s.params.base + off) 32 ∧
          t = (memRead s off).2.withHost
            (st.resume s.params.nw (memRead s off).1 (s.host.withScript rest)))) := by
  unfold hostStep at h
  split at h
  · rename_i hs
    exact .inl ⟨hs, by cases h; rfl⟩
  · rename_i st rest hs
    split at h
    · cases h
    · rename_i w s' ho
      simp only [Host.Outcome.next.injEq] at h
      obtain ⟨off, hoff, ha, hr | hw⟩ := busAccess_ok ho
      · obtain ⟨hq, he⟩ := hr
        have h1 : w = (memRead s off).1 := congrArg Prod.fst he
        have h2 : s' = (memRead s off).2 := congrArg Prod.snd he
        exact .inr ⟨st, rest, off, hs, hoff, ha, .inr ⟨hq, by rw [← h, h1, h2, memRead_host]⟩⟩
      · obtain ⟨v, hq, rfl, rfl⟩ := hw
        exact .inr ⟨st, rest, off, hs, hoff, ha, .inl ⟨v, hq, by rw [← h, memWrite_host]⟩⟩

/-- Everything an answered step of the host can do to the block: nothing, a soft reset, IRQ_EN, a command accepted, STATUS
bits cleared, a dropped write marked, or one word of A, B, E or N. -/
theorem hostStep_blk {s t : State} (h : hostStep s = .next t) :
    t.blk = s.blk ∨
    t.blk = Block.reset ∨
    (∃ e, t.blk = { s.blk with irqEn := e }) ∨
    (∃ v, s.blk.busy = false ∧ t.blk = s.blk.acceptCommand v) ∨
    (∃ v, t.blk = s.blk.writeStatus v) ∨
    (s.blk.busy = true ∧ t.blk = s.blk.dropWrite ∧
      ∃ st rest off v, s.host.script = st :: rest ∧ st.request s.params = .write (s.params.base + off) 32 v ∧
        (off = 0x00C ∨ (0x0400 ≤ off ∧ off < 0x1400))) ∨
    (∃ x k v, s.blk.busy = false ∧ x.hostWritable = true ∧ k < s.params.nw ∧
      t.blk = s.blk.set x (replaceWord (s.blk.get x) k v)) := by
  rcases hostStep_next h with ⟨-, rfl⟩ | ⟨st, rest, off, hs, ho, ha, ⟨v, hq, rfl⟩ | ⟨hq, rfl⟩⟩
  · exact .inl rfl
  · simp only [State.withHost_blk, memWrite_blk]
    rcases s.blk.windowWrite_cases s.params.nw v ha with h | ⟨_, h⟩ | ⟨h0, h⟩ | ⟨_, h⟩ |
      ⟨x, k, h1, h2, h3, h4, h⟩ | ⟨x, k, h1, h2, h3, h4, h5, h⟩ <;> rw [h]
    · exact .inl rfl
    · unfold Block.writeCtrl
      split
      · exact .inr (.inl rfl)
      · exact .inr (.inr (.inl ⟨_, rfl⟩))
    · unfold Block.writeCmd
      split
      · rename_i hb
        exact .inr (.inr (.inr (.inr (.inr (.inl ⟨hb, rfl, st, rest, off, v, hs, hq, .inl h0⟩)))))
      · rename_i hb
        exact .inr (.inr (.inr (.inl ⟨v, Bool.eq_false_iff.2 hb, rfl⟩)))
    · exact .inr (.inr (.inr (.inr (.inl ⟨v, rfl⟩))))
    · refine .inr (.inr (.inr (.inr (.inr (.inl ⟨h4, rfl, st, rest, off, v, hs, hq, .inr ?_⟩)))))
      cases x <;> simp only [win] at h1 <;> first | omega | cases h3
    · exact .inr (.inr (.inr (.inr (.inr (.inr ⟨x, k, v, h4, h3, h5, rfl⟩)))))
  · exact .inl (by simp)

/-- The host's step leaves the parameters and the turns as they are. -/
theorem hostStep_params {s t : State} (h : hostStep s = .next t) : t.params = s.params ∧ t.turns = s.turns := by
  rcases hostStep_next h with ⟨-, rfl⟩ | ⟨_, _, _, _, _, _, ⟨_, _, rfl⟩ | ⟨_, rfl⟩⟩ <;> simp

/-- Everything a step can do when it is answered. -/
theorem step_next {s t : State} (h : step s = .next t) :
    s.blk.errcode.val ≤ 5 ∧
    ((agentToMove s = .host ∧ hostStep s.popTurn = .next t) ∨
     (agentToMove s = .engine ∧ engineStep s.popTurn = .next t) ∨
     (agentToMove s = .reset ∧ t = hardwareReset s.popTurn)) := by
  unfold step runTurn at h
  split at h
  · cases h
  · rename_i he
    refine ⟨by omega, ?_⟩
    cases ha : agentToMove s <;> rw [ha] at h
    · exact .inl ⟨rfl, h⟩
    · exact .inr (.inl ⟨rfl, h⟩)
    · exact .inr (.inr ⟨rfl, by simpa using h.symm⟩)

/-- A step, by the agent that moves. -/
theorem step_host {s : State} (he : s.blk.errcode.val ≤ 5) (ha : agentToMove s = .host) :
    step s = hostStep s.popTurn := by
  simp [step, runTurn, ha, Nat.not_lt.2 he]
theorem step_engine {s : State} (he : s.blk.errcode.val ≤ 5) (ha : agentToMove s = .engine) :
    step s = engineStep s.popTurn := by
  simp [step, runTurn, ha, Nat.not_lt.2 he]
theorem step_reset {s : State} (he : s.blk.errcode.val ≤ 5) (ha : agentToMove s = .reset) :
    step s = .next (hardwareReset s.popTurn) := by
  simp [step, runTurn, ha, Nat.not_lt.2 he]

/-- The host moves by default while no command is in flight. -/
theorem agentToMove_nil_idle {s : State} (h : s.turns = []) (hb : s.blk.busy = false) :
    agentToMove s = .host := by
  simp [agentToMove, h, hb]

/-- The step after a command word has been put in flight runs that command, and takes no turn but the one put there for
it. -/
theorem step_withFetchWord {s : State} {nbits w : Nat} {i : Instr} (h : decode (tableWord nbits w) = .ok i) :
    step (s.withFetchWord nbits w) = exec i (s.withFetchWord nbits w).popTurn := by
  have ha : agentToMove (s.withFetchWord nbits w) = .engine := by
    unfold agentToMove State.withFetchWord latchFetchWord
    cases s.turns <;> rfl
  rw [step_engine (Nat.zero_le 5) ha]
  exact engineStep_exec rfl h

@[simp] theorem runSteps_zero (s : State) : runSteps 0 s = .next s := rfl

/-- A run whose first step is answered goes on from there. -/
theorem runSteps_succ {s t : State} (n : Nat) (h : step s = .next t) : runSteps (n + 1) s = runSteps n t := by
  simp [runSteps, h]

/-- A run of n steps, then one of m steps. -/
theorem runSteps_add (n m : Nat) {s t : State} (h : runSteps n s = .next t) : runSteps (n + m) s = runSteps m t := by
  induction n generalizing s with
  | zero => cases h; rw [Nat.zero_add]
  | succ n ih =>
    rw [Nat.succ_add]
    cases hs : step s with
    | next u => rw [runSteps_succ _ hs] at h ⊢; exact ih h
    | fault f => simp [runSteps, hs] at h
    | refused r => simp [runSteps, hs] at h

/-- `runSteps` is the run of the host's interface, when the machine is put behind it. -/
theorem runSteps_eq_run (n : Nat) (s : State) :
    runSteps n s = Host.Core.run ⟨State, Fault, Refusal, step, State.reset⟩ n s := by
  induction n generalizing s with
  | zero => rfl
  | succ n ih =>
    cases h : step s with
    | next t => simp [runSteps, Host.Core.run, h, ih t]
    | fault f => simp [runSteps, Host.Core.run, h]
    | refused r => simp [runSteps, Host.Core.run, h]

end Sys2Proof.Machine
end

