-- ==== Sys2Proof/Laws/PerInstr.lean ====
section
/-! SUPPORT. Family EncodeDecode: every command is well-formed, its word is legal, the decoder reads it back from the
word, from its four bytes, and from the opcode table's numbering (30_encoding.md R82, R83). -/

namespace Sys2Proof.Laws.EncodeDecode

/-- The word of i is legal, and all the decoders give i back from it. -/
def Statement (i : Instr) : Prop :=
  i.wf = true ∧ CmdWord.wf (encode i) = true ∧ decode (encode i) = .ok i ∧
  decodeBytes (encodeBytes i) = .ok (i, []) ∧ decodeTableWord 32 (encode i).toNat = some i

theorem nop : Statement .nop := ⟨rfl, rfl, rfl, rfl, rfl⟩
theorem modmul : Statement .modmul := ⟨rfl, rfl, rfl, rfl, rfl⟩
theorem montmul : Statement .montmul := ⟨rfl, rfl, rfl, rfl, rfl⟩
theorem tomont : Statement .tomont := ⟨rfl, rfl, rfl, rfl, rfl⟩
theorem frommont : Statement .frommont := ⟨rfl, rfl, rfl, rfl, rfl⟩
theorem modexp : Statement .modexp := ⟨rfl, rfl, rfl, rfl, rfl⟩
theorem gcd : Statement .gcd := ⟨rfl, rfl, rfl, rfl, rfl⟩
theorem modinv : Statement .modinv := ⟨rfl, rfl, rfl, rfl, rfl⟩
theorem bitlen : Statement .bitlen := ⟨rfl, rfl, rfl, rfl, rfl⟩

end Sys2Proof.Laws.EncodeDecode
end

