-- ==== Sys2Proof/Tests/Slice0.lean ====
section
/-! SUPPORT. Tests on the values of spec/95_test_vectors.md and of the rules' own examples, the checks of
well-formedness on ill-formed terms, and a witness for the hypotheses of each statement. -/

namespace Sys2Proof.Tests
open Sys2Proof.Machine

/-- A block with NW = nw, R = 0xDEAD, G = 0xBEEF and the given operands; command i in flight. -/
def inFlight (nw : Nat) (i : Instr) (a b e n : Nat) : State :=
  let s := State.resetFor { nw := nw, base := 0, irqLine := 0 }
  s.withBlk (({ s.blk with A := a, B := b, E := e, N := n, R := 0xDEAD, G := 0xBEEF }).acceptCommand (encode i))

/-- R, G and STATUS after one step. -/
def outcome (s : State) : Option (Nat × Nat × Word) :=
  match step s with
  | .next t => some (t.blk.R, t.blk.G, t.blk.statusWord)
  | _       => none

/-- A machine about to run a script on a block with BUSY = 0. -/
def scripted (nw : Nat) (l : List Stmt) : State :=
  let s := State.resetFor { nw := nw, base := 0x4000, irqLine := 3 }
  s.withHost (s.host.withScript l)

/-! ### Decoding: words from 30_encoding.md R82, written out; words of 95_test_vectors.md section 2.1 -/

theorem test_decode_control : decode 0b00000000000000000000000000000000#32 = .ok .nop := rfl
theorem test_decode_modmul : decode 0b00000000000000000000000000000001#32 = .ok .modmul := rfl
theorem test_decode_montmul : decode 0b00000000000000000000000000000010#32 = .ok .montmul := rfl
theorem test_decode_tomont : decode 0b00000000000000000000000000000011#32 = .ok .tomont := rfl
theorem test_decode_frommont : decode 0b00000000000000000000000000000100#32 = .ok .frommont := rfl
theorem test_decode_modexp : decode 0b00000000000000000000000000000101#32 = .ok .modexp := rfl
theorem test_decode_gcd : decode 0b00000000000000000000000000000110#32 = .ok .gcd := rfl
theorem test_decode_modinv : decode 0b00000000000000000000000000000111#32 = .ok .modinv := rfl
theorem test_decode_bitlen : decode 0b00000000000000000000000000001000#32 = .ok .bitlen := rfl
theorem test_decode_reserved_bits : decode 0x00000015#32 = .error .reservedBits := rfl
theorem test_decode_reserved_opcode : decode 0x0000000F#32 = .error .reservedOpcode := rfl
theorem test_decode_bytes_little_endian :
    decodeBytes [0x05#8, 0x00#8, 0x00#8, 0x00#8, 0xAA#8] = .ok (.modexp, [0xAA#8]) := rfl
theorem test_decode_bytes_truncated : decodeBytes [0x05#8, 0x00#8] = .error .truncated := rfl

/-! ### Well-formedness: a term that each check refuses -/

theorem test_wf_refuses_reserved_bits : CmdWord.wf 0x00000010#32 = false := by decide
theorem test_wf_refuses_reserved_opcode : CmdWord.wf 0x00000009#32 = false := by decide
theorem test_wf_takes_every_command : ∀ i ∈ [Instr.nop, .modmul, .montmul, .tomont, .frommont, .modexp, .gcd,
    .modinv, .bitlen], i.wf && CmdWord.wf (encode i) := by decide
theorem test_params_refuse : ¬ Params.Legal { nw := 0, base := 0, irqLine := 0 } ∧
    ¬ Params.Legal { nw := 257, base := 0, irqLine := 0 } ∧
    ¬ Params.Legal { nw := 1, base := 0x1000, irqLine := 0 } := by decide
theorem test_stmt_wf_refuses : ∀ st ∈ [Stmt.load .r 1 0, .load .a (2 ^ 32) 0, .load .a 1 1, .read .g (.var 0) 1 0,
    .mov .g .a 0 0, .wr 0x402 0#32, .rd 0x2000 .s, .busRead 0x400 32 .s, .busWrite 0x4400 8 0#32],
    Stmt.wf { nw := 1, base := 0x4000, irqLine := 0 } st = false := by decide

/-! ### Commands (95_test_vectors.md sections 2.2 to 2.9) -/

theorem test_nop : outcome (inFlight 1 .nop 0 0 0 0) = some (0xDEAD, 0xBEEF, 0x00000002#32) := by decide
theorem test_illegal : outcome (State.withFetchWord (inFlight 1 .nop 0 0 0 0) 32 0x17) =
    some (0xDEAD, 0xBEEF, 0x00000106#32) := by decide
theorem test_modmul : outcome (inFlight 1 .modmul 0xFFFFFFFF 0xFFFFFFFF 0 0xFFFFFFFB) =
    some (0x10, 0xBEEF, 0x00000002#32) := by decide
theorem test_modmul_zero : outcome (inFlight 1 .modmul 7 9 0 0) = some (0xDEAD, 0xBEEF, 0x00000206#32) := by decide
theorem test_montmul : outcome (inFlight 1 .montmul 0x12345678 0x0ABCDEF0 0 0x8D1A662D) =
    some (0x466A088A, 0xBEEF, 0x00000002#32) := by decide
theorem test_montmul_even_before_range : outcome (inFlight 1 .montmul 9 1 0 4) =
    some (0xDEAD, 0xBEEF, 0x00000306#32) := by decide
theorem test_tomont : outcome (inFlight 2 .tomont 0x0123456789ABCDEF 0 0 0xFFFFFFFFFFFFFFC5) =
    some (0x4320FEDCBA987615, 0xBEEF, 0x00000002#32) := by decide
theorem test_tomont_even : outcome (inFlight 1 .tomont 5 0 0 10) = some (0xDEAD, 0xBEEF, 0x00000306#32) := by decide
theorem test_frommont : outcome (inFlight 1 .frommont 0x12345678 0 0 0x8D1A662D) =
    some (0x1956A310, 0xBEEF, 0x00000002#32) := by decide
theorem test_frommont_range : outcome (inFlight 1 .frommont 7 0 0 7) =
    some (0xDEAD, 0xBEEF, 0x00000406#32) := by decide
theorem test_modexp : outcome (inFlight 1 .modexp 42 0 65537 0x8D1A662D) =
    some (0x80034151, 0xBEEF, 0x00000002#32) := by decide
theorem test_modexp_zero_to_zero : outcome (inFlight 1 .modexp 0 0 0 5) =
    some (1, 0xBEEF, 0x00000002#32) := by decide
theorem test_gcd : outcome (inFlight 1 .gcd 0x8D1A662D 0x1FDF9 0 0) =
    some (0x1FDF9, 0x1FDF9, 0x00000002#32) := by decide
theorem test_gcd_zero : outcome (inFlight 1 .gcd 0 0 0 0) = some (0, 0, 0x00000002#32) := by decide
theorem test_modinv : outcome (inFlight 1 .modinv 0x10001 0 0 0x8D182160) =
    some (0x47BFE0A1, 1, 0x00000002#32) := by decide
theorem test_modinv_not_invertible : outcome (inFlight 1 .modinv 0x46D5 0 0 0x8D1A662D) =
    some (0xDEAD, 0x46D5, 0x00000506#32) := by decide
theorem test_bitlen : outcome (inFlight 1 .bitlen 0x8D1A662D 0 0 0) = some (32, 0xBEEF, 0x00000002#32) := by decide
theorem test_bitlen_zero : outcome (inFlight 1 .bitlen 0 0 0 0) = some (0, 0xBEEF, 0x00000002#32) := by decide

/-! ### The register window (95_test_vectors.md section 3) and the host's statements -/

theorem test_status_write_one_to_clear :
    (({ Block.reset with done := true, overrun := true, errcode := 5 } : Block).windowWrite 1 0x010
      0xFFFFFFFF#32).statusWord = 0x00000504#32 := by decide
theorem test_status_with_overrun :
    ((inFlight 1 .modexp 3 0 5 8).blk.windowWrite 1 0x00C 1#32).windowRead 1 0x010 = some 0x00000009#32 := by decide
theorem test_param_of_opw_2048 : Block.reset.windowRead 64 0x004 = some 0x00000040#32 := by decide
theorem test_word_beyond_nw : (Block.reset.windowWrite 1 0x404 0xFFFFFFFF#32).windowRead 1 0x404 = some 0#32 := by
  decide
theorem test_r_unspecified_while_busy : (inFlight 1 .modexp 3 0 5 8).blk.windowRead 1 0x1400 = none := by decide
theorem test_load_encoding :
    scriptEncoding { nw := 2, base := 0, irqLine := 0 } [(.load .e 0xFFFFFFFFFFFFFFC4 0, 0), (.command .modexp, 0)] =
      [.write 0x0C00 32 0xFFFFFFC4#32, .write 0x0C04 32 0xFFFFFFFF#32, .write 0x000C 32 0x00000005#32] := by decide
theorem test_mov_encoding : scriptEncoding { nw := 1, base := 0, irqLine := 0 } [(.mov .a .r 0 0, 0x80034151)] =
    [.read 0x1400 32, .write 0x0400 32 0x80034151#32] := by decide
/-- WAIT binds s to the STATUS word it reads (program P7, step 6: DONE and OVERRUN). -/
theorem test_wait_binds_s :
    (Stmt.resume 1 (({ Block.reset with done := true, overrun := true } : Block).statusWord)
      { script := [], vars := [], aborted := false } .wait) =
      { script := [], vars := [(.s, 0x0000000A)], aborted := false } := by decide
/-- WAITOK binds s too before it aborts (the STATUS of program P4, step 5). -/
theorem test_waitok_aborts :
    (Stmt.resume 1 0x00000506#32 { script := [.ack], vars := [], aborted := false } .waitok) =
      { script := [], vars := [(.s, 0x00000506)], aborted := true } := by decide
theorem test_irq_line : ((scripted 1 []).withBlk { Block.reset with irqEn := true, done := true }).irqLevel 3 = true ∧
    ((scripted 1 []).withBlk { Block.reset with irqEn := true, done := true }).irqLevel 2 = false ∧
    (acknowledge { Block.reset with irqEn := true, done := true }).irq = false := by decide
/-- Aborting a command: program P9 of 95_test_vectors.md, the soft reset ordered before the completion. -/
theorem test_soft_reset_cancels :
    ((inFlight 1 .modexp 42 0 65537 0x8D1A662D).blk.windowWrite 1 0x008 0x00000003#32) = Block.reset := by decide
/-- The reference datapath of MONTMUL on the example of 41_modmul.md R125. -/
theorem test_radix_two_datapath : montMulR2 32 0x12345678 0x0ABCDEF0 0x8D1A662D = 0x466A088A := by
  decide +kernel
theorem test_end_of_run : (scripted 1 []).Ended ∧ SafeStep (scripted 1 []) :=
  ⟨by decide, fun f h => by cases h⟩

/-! ### Witnesses: a state and operands that meet the hypotheses of each statement, each clause of it -/

/-- A state whose engine is to move, with the given word in flight. -/
def flying (w : Word) : State := (State.resetFor { nw := 1, base := 0x4000, irqLine := 3 }).withBlk
  (Block.reset.acceptCommand w)

theorem witness_ResetLeavesEveryRegisterZero : Params.Legal { nw := 256, base := 0x2000, irqLine := 7 } ∧
    Params.Legal { nw := 1, base := 0, irqLine := 0 } := by decide
theorem witness_HardwareResetClearsTheBlock :
    let s := { flying 5#32 with turns := [.reset, .engine] }
    s.turns = .reset :: [.engine] ∧ s.blk.errcode.val ≤ 5 := by decide
theorem witness_CtrlWriteSoftResetsOrSetsIrqEn :
    (0x00000002#32).getLsbD 1 = true ∧ (0x00000001#32).getLsbD 1 = false := by decide
theorem witness_IdAndParamReadConstant : (flying 0#32).params.Legal ∧ ∃ t, step (flying 0#32) = .next t :=
  ⟨by decide, _, rfl⟩
theorem witness_StepRunsTheLatchedCommand :
    (agentToMove (flying 7#32) = .engine ∧ (flying 7#32).blk.busy = true ∧ (flying 7#32).blk.errcode.val ≤ 5 ∧
      (flying 7#32).turns = []) ∧ decode (flying 7#32).blk.cmd = .ok .modinv := ⟨by decide, rfl⟩
theorem witness_StepIsTheMovingAgentsStep :
    let s := scripted 1 []
    s.blk.errcode.val ≤ 5 ∧ ({ s with turns := [.host] }).turns = .host :: [] ∧
    ({ s with turns := [.engine] }).turns = .engine :: [] ∧ s.turns = [] ∧ s.blk.busy = false ∧
    (flying 0#32).turns = [] ∧ (flying 0#32).blk.busy = true ∧ (flying 0#32).blk.errcode.val ≤ 5 := by decide
theorem witness_IllegalWordCompletesWithCodeOne :
    (let s := flying 0x80000000#32; agentToMove s = .engine ∧ s.blk.busy = true ∧ s.blk.errcode.val ≤ 5 ∧
      s.blk.cmd.toNat / 16 ≠ 0) ∧
    (let s := flying 0x00000009#32; agentToMove s = .engine ∧ s.blk.busy = true ∧ 9 ≤ s.blk.cmd.toNat % 16) := by
  decide
theorem witness_ModmulReducesTheExactProduct :
    (inFlight 1 .modmul 7 9 0 0).blk.N = 0 ∧ (inFlight 1 .modmul 7 9 0 1).blk.N ≠ 0 := by decide
theorem witness_MontmulMultipliesByTheRadixInverse :
    (inFlight 1 .montmul 1 1 0 0).blk.N = 0 ∧
    ((inFlight 1 .montmul 1 1 0 4).blk.N ≠ 0 ∧ (inFlight 1 .montmul 1 1 0 4).blk.N % 2 = 0) ∧
    (let b := (inFlight 1 .montmul 1 7 0 7).blk; b.N % 2 = 1 ∧ (b.N ≤ b.A ∨ b.N ≤ b.B)) ∧
    (let b := (inFlight 1 .montmul 0 0 0 1).blk; b.N % 2 = 1 ∧ b.A < b.N ∧ b.B < b.N) := by decide
theorem witness_TomontMultipliesByTheRadix :
    (inFlight 1 .tomont 5 0 0 0).blk.N = 0 ∧
    ((inFlight 1 .tomont 5 0 0 10).blk.N ≠ 0 ∧ (inFlight 1 .tomont 5 0 0 10).blk.N % 2 = 0) ∧
    (inFlight 1 .tomont 5 0 0 1).blk.N % 2 = 1 := by decide
theorem witness_FrommontDividesByTheRadix :
    (inFlight 1 .frommont 5 0 0 0).blk.N = 0 ∧
    ((inFlight 1 .frommont 1 0 0 8).blk.N ≠ 0 ∧ (inFlight 1 .frommont 1 0 0 8).blk.N % 2 = 0) ∧
    (let b := (inFlight 1 .frommont 7 0 0 7).blk; b.N % 2 = 1 ∧ b.N ≤ b.A) ∧
    (let b := (inFlight 1 .frommont 6 0 0 7).blk; b.N % 2 = 1 ∧ b.A < b.N) := by decide
theorem witness_ModexpRaisesToThePower :
    (inFlight 1 .modexp 2 0 10 0).blk.N = 0 ∧ (inFlight 1 .modexp 0 0 0 1).blk.N ≠ 0 := by decide
theorem witness_ModinvInvertsOrReportsTheGcd :
    (inFlight 1 .modinv 5 0 0 0).blk.N = 0 ∧
    (let b := (inFlight 1 .modinv 6 0 0 9).blk; b.N ≠ 0 ∧ Nat.gcd b.A b.N ≠ 1) ∧
    (let b := (inFlight 1 .modinv 5 0 0 1).blk; b.N ≠ 0 ∧ Nat.gcd b.A b.N = 1) := by decide
theorem witness_BitlenIsTheLeastExponent :
    let s := inFlight 1 .bitlen 0xFFFFFFFF 0 0 0
    s.blk.A < 2 ^ 32 ∧ s.blk.A < 2 ^ s.params.opw := by decide
theorem witness_FirstApplicableErrorIsReported :
    (flying 0x17#32).blk.busy = true ∧ decode (flying 0x17#32).blk.cmd = .error .reservedBits ∧
    decode (flying 2#32).blk.cmd = .ok .montmul := ⟨rfl, rfl, rfl⟩
theorem witness_FailedCommandWritesOnlyStatus :
    (∃ t, engineStep (inFlight 1 .modmul 7 9 0 0) = .next t ∧ t.blk.errcode ≠ 0 ∧
      decode (inFlight 1 .modmul 7 9 0 0).blk.cmd ≠ .ok .modinv) ∧
    (∃ t, engineStep (inFlight 1 .modinv 6 0 0 0) = .next t ∧ t.blk.errcode ≠ 0 ∧ t.blk.errcode ≠ 5) ∧
    ∃ t, engineStep (inFlight 1 .modinv 6 0 0 9) = .next t ∧ t.blk.errcode = 5 ∧
      decode (inFlight 1 .modinv 6 0 0 9).blk.cmd = .ok .modinv :=
  ⟨⟨_, rfl, by decide, by decide⟩, ⟨_, rfl, by decide, by decide⟩, _, rfl, by decide, rfl⟩
theorem witness_EveryCommandInFlightCompletes :
    let s := { inFlight 1 .modexp 2 0 10 7 with turns := [.engine, .host] }
    agentToMove s = .engine ∧ s.blk.busy = true ∧ s.blk.errcode.val ≤ 5 := by decide
theorem witness_CommandFrame :
    (∃ t, exec .montmul (inFlight 1 .montmul 9 1 0 4) = .next t ∧ t.blk.errcode ≠ 0) ∧
    (∃ t, exec .nop (flying 0#32) = .next t) ∧
    (0x1BFC ≠ 0x010 ∧ ¬(0x1400 ≤ 0x13FC ∧ 0x13FC < 0x1C00) ∧ ¬(0x1400 ≤ 0x1C00 ∧ 0x1C00 < 0x1C00)) :=
  ⟨⟨_, rfl, by decide⟩, ⟨_, rfl⟩, by decide⟩
theorem witness_OrderOfWriteAndCompletionDecides :
    (inFlight 1 .modexp 3 0 5 8).Inv ∧ (inFlight 1 .modexp 3 0 5 8).blk.busy = true := by decide
theorem witness_IrqFollowsEnableAndDone : (0xFFFFFFFF#32).getLsbD 1 = true ∧ State.reset.blk.busy = false := by decide
theorem witness_OnlyCompletionSetsDone : (flying 0#32).blk.done = false ∧
    ∃ t, step (flying 0#32) = .next t ∧ t.blk.done = true := ⟨rfl, _, rfl, rfl⟩

/-- A host about to write a window word while a command is in flight. -/
def writeWhileBusy : State :=
  { (flying 5#32).withHost { script := [.wr 0x400 5#32], vars := [], aborted := false } with turns := [.host] }

theorem witness_OnlyDroppedWriteSetsOverrun : writeWhileBusy.blk.overrun = false ∧
    ∃ t, step writeWhileBusy = .next t ∧ t.blk.overrun = true := ⟨rfl, _, rfl, rfl⟩
theorem witness_CmdWriteIsAcceptedOrDropped : (flying 5#32).blk.busy = true ∧ State.reset.blk.busy = false := by decide
theorem witness_OperandWriteReplacesOneWord :
    (255 < 256) ∧ (Operand.g = .r ∨ Operand.g = .g) ∧ (Operand.n ≠ .r ∧ Operand.n ≠ .g) ∧
    (flying 5#32).blk.busy = true ∧ (scripted 1 []).blk.busy = false ∧ (scripted 1 []).params.nw ≤ 1 ∧
    0 < (scripted 1 []).params.nw ∧ 255 < (scripted 256 []).params.nw := by decide
theorem witness_OperandReadReturnsOneWord :
    (scripted 1 []).params.nw ≤ 1 ∧ 0 < (flying 5#32).params.nw ∧ (flying 5#32).blk.busy = true ∧
    (Operand.a ≠ .r ∧ Operand.a ≠ .g) ∧ (scripted 256 []).blk.busy = false ∧ 255 < (scripted 256 []).params.nw := by
  decide
theorem witness_ReservedOffsetsReadZeroIgnoreWrites : ∀ off ∈ [0x014, 0x3FC, 0x1C00, 0x1FFC],
    off % 4 = 0 ∧ ((0x014 ≤ off ∧ off < 0x400) ∨ (0x1C00 ≤ off ∧ off < 0x2000)) := by decide
theorem witness_OperandWordWrittenIsReadBack :
    Operand.e ≠ .r ∧ Operand.e ≠ .g ∧ 1 < (scripted 2 []).params.nw ∧ (scripted 2 []).blk.busy = false ∧
    0xC00 % 4 = 0 ∧ 0xC00 ≠ win .e + 4 * 1 := by decide
theorem witness_UndefinedAccessIsRefused :
    let p := (scripted 1 []).params
    (∀ st ∈ [Stmt.rd 0x0002 .s, .wr 0x1FFF 5#32, .busRead 0x4002 32 .s, .busWrite 0x4400 8 5#32],
      let s := scripted 1 [st]
      agentToMove s = .host ∧ s.blk.errcode.val ≤ 5 ∧ s.host.script = st :: []) ∧
    ((Stmt.busRead 0x4002 32 .s).request p = .read 0x4002 32 ∧ p.base ≤ 0x4002 ∧ 0x4002 < p.base + 0x2000 ∧
      (0x4002 - p.base) % 4 ≠ 0) ∧
    ((Stmt.busWrite 0x4400 8 5#32).request p = .write 0x4400 8 5#32 ∧ p.base ≤ 0x4400 ∧ 0x4400 < p.base + 0x2000 ∧
      8 ≠ 32) ∧
    (0x1FFF < 0x2000 ∧ 0x1FFF % 4 ≠ 0 ∧ 0x0002 % 4 ≠ 0) := by decide
theorem witness_AccessOutsideTheWindowIsRefused :
    let p := (scripted 1 []).params
    (∀ st ∈ [Stmt.rd 0x2000 .s, .wr 0x2000 5#32, .busRead 0x3FFC 32 .s, .busWrite 0x6000 32 5#32],
      let s := scripted 1 [st]
      agentToMove s = .host ∧ s.blk.errcode.val ≤ 5 ∧ s.host.script = st :: []) ∧
    ((Stmt.busRead 0x3FFC 32 .s).request p = .read 0x3FFC 32 ∧ 0x3FFC < p.base) ∧
    ((Stmt.busWrite 0x6000 32 5#32).request p = .write 0x6000 32 5#32 ∧ p.base + 0x2000 ≤ 0x6000) := by decide
theorem witness_HostWriteStatementsWriteTheWindow : ∀ st ∈ [Stmt.wr 0x1FFC 5#32, .busWrite (0x4000 + 0x1FFC) 32 5#32,
    .command .modexp, .ack, .clrovr, .irqon, .irqoff, .sreset], agentToMove (scripted 1 [st]) = .host ∧ (scripted 1 [st]).blk.errcode.val ≤ 5 ∧
    (scripted 1 [st]).host.script = st :: [] := by decide
theorem witness_HostReadStatementsReadTheWindow :
    (let s := scripted 1 [.rd 0x1FFC .s]; agentToMove s = .host ∧ s.host.script = .rd 0x1FFC .s :: [] ∧ 0x1FFC < 0x2000) ∧
    (let s := scripted 1 [.busRead (0x4000 + 0x1FFC) 32 .s]
     agentToMove s = .host ∧ s.host.script = .busRead (s.params.base + 0x1FFC) 32 .s :: []) ∧
    (let s := scripted 1 [.wait]; agentToMove s = .host ∧ s.host.script = .wait :: []) ∧
    (let s := { scripted 1 [.waitok] with turns := [.host], blk := (flying 0#32).blk }
     agentToMove s = .host ∧ s.host.script = .waitok :: [] ∧ s.blk.busy = true ∧ s.blk.errcode.val ≤ 5) ∧
    (let s := scripted 1 [.waitok]; s.host.script = .waitok :: [] ∧ s.blk.busy = false ∧ s.blk.errcode = 0) ∧
    (let s := (scripted 1 [.waitok]).withBlk { Block.reset with errcode := 5 }
     agentToMove s = .host ∧ s.blk.busy = false ∧ s.blk.errcode ≠ 0 ∧ s.blk.errcode.val ≤ 5) := by decide
theorem witness_LoadPutsTheValueInTheRegister :
    let s := scripted 2 [.load .n 0xFFFFFFFFFFFFFFC5 0]
    s.Inv ∧ s.turns = [] ∧ s.blk.busy = false ∧ Operand.n ≠ .r ∧ Operand.n ≠ .g ∧
    0xFFFFFFFFFFFFFFC5 < 2 ^ s.params.opw ∧ s.host.script = .load .n 0xFFFFFFFFFFFFFFC5 0 :: [] := by decide
theorem witness_ReadReturnsTheRegister :
    let s := scripted 2 [.read .g (.var 4) 0 0]
    s.Inv ∧ s.turns = [] ∧ s.blk.busy = false ∧ s.host.script = .read .g (.var 4) 0 0 :: [] := by decide
theorem witness_MovCopiesTheRegister :
    let s := scripted 2 [.mov .a .r 0 0]
    s.Inv ∧ s.turns = [] ∧ s.blk.busy = false ∧ Operand.a ≠ .r ∧ Operand.a ≠ .g ∧
    s.host.script = .mov .a .r 0 0 :: [] := by decide
theorem witness_ResetMeetsTheInvariant : Params.Legal { nw := 64, base := 0, irqLine := 0 } := by decide
theorem witness_EveryStepKeepsTheInvariant :
    (inFlight 1 .modinv 6 0 0 9).Inv ∧ ∃ t, step (inFlight 1 .modinv 6 0 0 9) = .next t := ⟨by decide, _, rfl⟩
theorem witness_StopsAreReservedCodesAndHostAccesses :
    (5 < (({ Block.reset with errcode := 6 } : Block)).errcode.val) ∧ State.reset.Inv ∧
    ∃ r, step (scripted 1 [.busRead 0x4002 32 .s]) = .refused r := ⟨by decide, by decide, _, rfl⟩
theorem witness_ResultsChangeOnlyByCompletionOrReset :
    ∃ t, step (inFlight 1 .gcd 12 18 0 0) = .next t ∧ t.blk.R ≠ 0xDEAD := ⟨_, rfl, by decide⟩
theorem witness_ResultIsFixedAtAcceptance :
    ∃ (n : Nat) (f : Nat → State), 0 < n ∧ (∀ j, j < n → step (f j) = .next (f (j + 1))) ∧
      ∀ j, j ≤ n → (f j).blk.busy = true := by
  obtain ⟨t, ht, hb⟩ : ∃ t, step writeWhileBusy = .next t ∧ t.blk.busy = true := ⟨_, rfl, rfl⟩
  refine ⟨1, fun j => if j = 0 then writeWhileBusy else t, by decide, fun j hj => ?_, fun j _ => ?_⟩
  · obtain rfl : j = 0 := by omega
    exact ht
  · by_cases h : j = 0
    · subst h; rfl
    · simpa [h] using hb

theorem witness_MontgomeryDomainLaws :
    let s := inFlight 1 .montmul 0 0 0 0x8D1A662D
    s.blk.N % 2 = 1 ∧ 0x12345678 < s.blk.N ∧ 0x0ABCDEF0 < s.blk.N := by decide
theorem witness_RsaRoundTrip :
    Nat.Prime 11 ∧ Nat.Prime 3 ∧ 11 ≠ 3 ∧ (inFlight 1 .modexp 32 0 3 33).blk.N = 11 * 3 ∧
    (inFlight 1 .modexp 32 0 3 33).blk.E * 7 % ((11 - 1) * (3 - 1)) = 1 ∧
    (inFlight 1 .modexp 32 0 3 33).blk.A < (inFlight 1 .modexp 32 0 3 33).blk.N :=
  ⟨by norm_num, by norm_num, by decide, by decide, by decide, by decide⟩
theorem witness_SuccessfulInverseMultipliesToOne :
    (∃ t, exec .modinv (inFlight 1 .modinv 3 0 0 8) = .next t ∧ t.blk.errcode = 0) ∧
    (inFlight 1 .modinv 3 0 0 8).blk.N > 1 ∧
    ∃ t, exec .modinv (inFlight 1 .modinv 5 0 0 1) = .next t ∧ t.blk.errcode = 0 :=
  ⟨⟨_, rfl, by decide⟩, by decide, _, rfl, by decide⟩
theorem witness_RadixTwoDatapathComputesMontmul :
    let s := inFlight 1 .montmul 0x8D1A662C 0x8D1A662C 0 0x8D1A662D
    s.blk.N % 2 = 1 ∧ s.blk.A < s.blk.N ∧ s.blk.B < s.blk.N ∧ s.blk.N < 2 ^ s.params.opw := by decide
theorem witness_SquareAndMultiplyComputesThePower : (1 : Nat) ≤ 1 ∧ 1 ≤ 2 ^ 32 - 1 := by decide
theorem witness_ExtendedEuclidComputesGcdAndCoefficient : (1 : Nat) ≤ 1 ∧ 1 ≤ 2 ^ 32 - 1 := by decide

end Sys2Proof.Tests
end

/-! PROOFS. The registers of the block as the host reads and writes them (10_state.md): one rule for each register
accessed, one rule for each branch of its write, and from them the statements of O1, O3, O4, O28, O29 and O31. -/

namespace Sys2Proof.Machine

/-! Reads of the fixed offsets (10_state.md R24 to R28): each answers its register's word and changes nothing. -/

@[simp] theorem memRead_id (s : State) : memRead s 0x000 = (idWord, s) := memRead_of_some rfl
@[simp] theorem memRead_param (s : State) : memRead s 0x004 = (paramWord s.params.nw, s) := memRead_of_some rfl
@[simp] theorem memRead_ctrl (s : State) : memRead s 0x008 = (s.blk.ctrlWord, s) := memRead_of_some rfl
@[simp] theorem memRead_cmd (s : State) : memRead s 0x00C = (s.blk.cmd, s) := memRead_of_some rfl
@[simp] theorem memRead_status (s : State) : memRead s 0x010 = (s.blk.statusWord, s) := memRead_of_some rfl

/-! Writes to the fixed offsets and to an operand's word: each is its register's write. -/

@[simp] theorem memWrite_id (s : State) (v : Word) : memWrite s 0x000 v = s := rfl
@[simp] theorem memWrite_param (s : State) (v : Word) : memWrite s 0x004 v = s := rfl
@[simp] theorem memWrite_ctrl (s : State) (v : Word) : memWrite s 0x008 v = s.withBlk (s.blk.writeCtrl v) := rfl
@[simp] theorem memWrite_cmd (s : State) (v : Word) : memWrite s 0x00C v = s.withBlk (s.blk.writeCmd v) := rfl
@[simp] theorem memWrite_status (s : State) (v : Word) : memWrite s 0x010 v = s.withBlk (s.blk.writeStatus v) := rfl
@[simp] theorem memWrite_operand (s : State) (x : Operand) {k : Nat} (v : Word) (hk : k < 256) :
    memWrite s (win x + 4 * k) v = s.withBlk (s.blk.writeOperand s.params.nw x k v) := by
  simp [memWrite, Block.windowWrite, hk]

/-! The branches of the writes to CTRL, CMD and STATUS (10_state.md R26 to R28). -/

theorem Block.writeCtrl_of_sreset (b : Block) {v : Word} (h : v.getLsbD 1 = true) : b.writeCtrl v = Block.reset :=
  if_pos h
theorem Block.writeCtrl_of_not_sreset (b : Block) {v : Word} (h : v.getLsbD 1 = false) :
    b.writeCtrl v = { b with irqEn := v.getLsbD 0 } :=
  if_neg (Bool.eq_false_iff.1 h)

theorem Block.writeCmd_of_busy {b : Block} (v : Word) (h : b.busy = true) : b.writeCmd v = b.dropWrite :=
  if_pos h
theorem Block.writeCmd_of_idle {b : Block} (v : Word) (h : b.busy = false) : b.writeCmd v = b.acceptCommand v :=
  if_neg (Bool.eq_false_iff.1 h)

/-- Write-1-to-clear, read as a choice on the bit written. -/
theorem Block.writeStatus_eq_ite (b : Block) (v : Word) :
    b.writeStatus v = { b with
      done := if v.getLsbD 1 then false else b.done
      overrun := if v.getLsbD 3 then false else b.overrun } := by
  have clear : ∀ f c : Bool, (f && !c) = if c then false else f := by decide
  simp only [Block.writeStatus, clear]

/-! The branches of the write to an operand's word (10_state.md R21, R22). -/

theorem Operand.hostWritable_eq_false_iff {x : Operand} : x.hostWritable = false ↔ x = .r ∨ x = .g := by
  cases x <;> decide
theorem Operand.hostWritable_of_ne {x : Operand} (hr : x ≠ .r) (hg : x ≠ .g) : x.hostWritable = true := by
  rw [← Bool.not_eq_false, Operand.hostWritable_eq_false_iff]
  exact not_or.2 ⟨hr, hg⟩

section
variable {b : Block} {nw k : Nat} {x : Operand} (v : Word)

theorem Block.writeOperand_of_readOnly (hx : x.hostWritable = false) : b.writeOperand nw x k v = b := by
  simp [Block.writeOperand, hx]
theorem Block.writeOperand_of_busy (hx : x.hostWritable = true) (hb : b.busy = true) :
    b.writeOperand nw x k v = b.dropWrite := by
  simp [Block.writeOperand, Block.dropWrite, hx, hb]
theorem Block.writeOperand_beyond (hx : x.hostWritable = true) (hb : b.busy = false) (hk : nw ≤ k) :
    b.writeOperand nw x k v = b := by
  simp [Block.writeOperand, hx, hb, hk]
theorem Block.writeOperand_within (hx : x.hostWritable = true) (hb : b.busy = false) (hk : k < nw) :
    b.writeOperand nw x k v = b.set x (replaceWord (b.get x) k v) := by
  simp [Block.writeOperand, hx, hb, hk]

end

/-! The words read from CTRL and STATUS (10_state.md R26, R27). -/

theorem Block.ctrlWord_eq_ite (b : Block) :
    b.ctrlWord = if b.irqEn then 0x00000001#32 else 0x00000000#32 := by
  unfold Block.ctrlWord
  cases b.irqEn <;> rfl

theorem Block.err_eq_true_iff (b : Block) : b.err = true ↔ b.errcode ≠ 0 := by simp [Block.err]

/-- The fields of STATUS above BUSY and beside ERRCODE: DONE, ERR, OVERRUN in bits 1 to 3, and the bits that read 0. -/
theorem Block.statusWord_layout (b : Block) :
    b.statusWord.getLsbD 1 = b.done ∧ b.statusWord.getLsbD 2 = b.err ∧ b.statusWord.getLsbD 3 = b.overrun ∧
    b.statusWord.extractLsb' 4 4 = 0#4 ∧ b.statusWord.extractLsb' 12 20 = 0#20 := by
  unfold Block.statusWord
  generalize b.busy = busy
  generalize b.done = done
  generalize b.overrun = overrun
  generalize b.err = err
  generalize b.errcode = code
  revert busy done overrun err code
  decide

/-! The state after reset (10_state.md R37). -/

@[simp] theorem State.resetFor_blk (p : Params) : (State.resetFor p).blk = Block.reset := rfl
@[simp] theorem State.resetFor_params (p : Params) : (State.resetFor p).params = p := rfl
@[simp] theorem Block.ctrlWord_reset : Block.reset.ctrlWord = 0x00000000#32 := by decide
@[simp] theorem Block.statusWord_reset : Block.reset.statusWord = 0x00000000#32 := by decide
@[simp] theorem Block.irq_reset : Block.reset.irq = false := rfl

/-! Parameters. -/

/-- No agent's move changes the parameters (00_scope.md R6, 93_implementation_defined.md I6, I7). -/
theorem step_params {s t : State} (h : step s = .next t) : t.params = s.params := by
  obtain ⟨-, ⟨-, hh⟩ | ⟨-, he⟩ | ⟨-, rfl⟩⟩ := step_next h
  · exact (hostStep_params hh).1
  · cases hb : s.popTurn.blk.busy with
    | false => cases (engineStep_idle hb).symm.trans he; rfl
    | true =>
      obtain ⟨r, g, c, hc⟩ := engineStep_busy hb
      cases hc.symm.trans he; rfl
  · rfl

/-- A legal NW fits in the 16 bits that PARAM has for it (10_state.md R25). -/
theorem paramWord_toNat_of_legal {p : Params} (h : p.Legal) : (paramWord p.nw).toNat = p.nw := by
  obtain ⟨-, hle, -⟩ := h
  exact paramWord_toNat (by omega)

end Sys2Proof.Machine

namespace Sys2Proof.Proofs
open Sys2Proof.Machine

/-- Settles O4: no access writes ID or PARAM, and what they read depends on the parameters alone, which every step
keeps. -/
theorem idAndParamReadConstant : Obligations.IdAndParamReadConstant := by
  intro s hp
  refine ⟨memRead_id s, by simp, by simp [paramWord_toNat_of_legal hp], fun v => ⟨rfl, rfl⟩, fun t h => ⟨?_, ?_⟩⟩
  · simp [idWord]
  · simp [step_params h]

/-- Settles O29, a clause for each branch of the write. -/
theorem operandWriteReplacesOneWord : Obligations.OperandWriteReplacesOneWord := by
  intro s x k v hk
  rw [memWrite_operand s x v hk]
  refine ⟨fun hx => ?_, fun hr hg hb => ?_, fun hr hg hb hn => ?_, fun hr hg hb hn =>
    ⟨replaceWord (s.blk.get x) k v, testBit_replaceWord _ _ _, ?_⟩⟩
  · rw [Block.writeOperand_of_readOnly v (Operand.hostWritable_eq_false_iff.2 hx), State.withBlk_blk_self]
  · rw [Block.writeOperand_of_busy v (Operand.hostWritable_of_ne hr hg) hb]; rfl
  · rw [Block.writeOperand_beyond v (Operand.hostWritable_of_ne hr hg) hb hn, State.withBlk_blk_self]
  · rw [Block.writeOperand_within v (Operand.hostWritable_of_ne hr hg) hb hn]; rfl

/-- Settles O1: the reset state is given field by field, and its ID and PARAM read as in every state. -/
theorem resetLeavesEveryRegisterZero : Obligations.ResetLeavesEveryRegisterZero := by
  intro p hp
  exact ⟨rfl, by simp [idWord], by simp [paramWord_toNat_of_legal hp], fun l => by simp [State.irqLevel]⟩

/-- Settles O3: the soft reset clears BUSY with the rest, so the engine has nothing left to complete. -/
theorem ctrlWriteSoftResetsOrSetsIrqEn : Obligations.CtrlWriteSoftResetsOrSetsIrqEn := by
  refine ⟨fun p => by simp, fun s v => ⟨fun h => ?_, fun h => ?_, ?_⟩⟩
  · rw [memWrite_ctrl, Block.writeCtrl_of_sreset _ h]
    exact ⟨rfl, engineStep_idle rfl⟩
  · rw [memWrite_ctrl, Block.writeCtrl_of_not_sreset _ h]; rfl
  · rw [memRead_ctrl, Block.ctrlWord_eq_ite]

/-- Settles O28, a clause for each branch of the write. -/
theorem cmdWriteIsAcceptedOrDropped : Obligations.CmdWriteIsAcceptedOrDropped := by
  refine ⟨fun s v => ⟨fun h => ?_, fun h => ?_, memRead_cmd s⟩, fun p => rfl⟩
  · rw [memWrite_cmd, Block.writeCmd_of_busy v h]; rfl
  · rw [memWrite_cmd, Block.writeCmd_of_idle v h]; rfl

/-- Settles O31: the word read is STATUS's layout field by field. -/
theorem statusReadsAndClears : Obligations.StatusReadsAndClears := by
  refine ⟨fun p => by simp, fun s v => ?_⟩
  obtain ⟨hDone, hErr, hOverrun, hLow, hHigh⟩ := s.blk.statusWord_layout
  refine ⟨⟨s.blk.statusWord, memRead_status s, s.blk.statusWord_bit0, hDone, ?_, hOverrun, hLow,
    s.blk.statusWord_errcode, hHigh⟩, ?_⟩
  · rw [hErr, Block.err_eq_true_iff]
  · rw [memWrite_status, Block.writeStatus_eq_ite]; rfl

end Sys2Proof.Proofs

/-! PROOFS. The decoder and the encoder of command words (30_encoding.md R80 to R84): what the two fields of a word
say, what the opcode map answers for each opcode, and from them the statement of O6. -/

namespace Sys2Proof

/-! The fields of a word (30_encoding.md R80) as numbers. -/

@[simp] theorem opField_toNat (w : Word) : (opField w).toNat = w.toNat % 16 := by simp [opField]
@[simp] theorem rsvdField_toNat (w : Word) : (rsvdField w).toNat = w.toNat / 16 := by
  rw [rsvdField, BitVec.extractLsb'_toNat, Nat.shiftRight_eq_div_pow]
  exact Nat.mod_eq_of_lt (by omega)

theorem rsvdField_eq_zero_iff (w : Word) : rsvdField w = 0#28 ↔ w.toNat / 16 = 0 := by
  rw [← BitVec.toNat_inj, rsvdField_toNat, BitVec.toNat_zero]

@[simp] theorem encode_toNat (i : Instr) : (encode i).toNat = (opcodeOf i).toNat :=
  (BitVec.toNat_append 0#28 (opcodeOf i)).trans (by simp)

/-- A word is i's word exactly if its fields are those of i's row in the opcode map (30_encoding.md R82). -/
theorem eq_encode_iff (w : Word) (i : Instr) : w = encode i ↔ rsvdField w = 0#28 ∧ opField w = opcodeOf i := by
  have hop := (opcodeOf i).isLt
  rw [rsvdField_eq_zero_iff, ← BitVec.toNat_inj, ← BitVec.toNat_inj, encode_toNat, opField_toNat]
  omega

/-! The opcode map (30_encoding.md R82, R84), in both directions. -/

@[simp] theorem decodeOp_opcodeOf (i : Instr) : decodeOp (opcodeOf i) = .ok i := by cases i <;> rfl

theorem decodeOp_eq_ok_iff (op : BitVec 4) (i : Instr) : decodeOp op = .ok i ↔ op = opcodeOf i := by
  refine ⟨fun h => ?_, fun h => h ▸ decodeOp_opcodeOf i⟩
  unfold decodeOp at h
  split at h <;> cases h <;> exact BitVec.eq_of_toNat_eq ‹_›

theorem decodeOp_eq_error_iff (op : BitVec 4) : (∃ e, decodeOp op = .error e) ↔ 9 ≤ op.toNat := by
  unfold decodeOp
  split
  case h_10 =>
    simp only [imp_false] at *
    exact iff_of_true ⟨_, rfl⟩ (by omega)
  all_goals simp [*]

/-! The two branches of the decoder (30_encoding.md R83). -/

theorem decode_of_rsvd_zero {w : Word} (h : rsvdField w = 0#28) : decode w = decodeOp (opField w) := if_pos h
theorem decode_of_rsvd_ne {w : Word} (h : rsvdField w ≠ 0#28) : decode w = .error .reservedBits := if_neg h

theorem decode_eq_ok_iff (w : Word) (i : Instr) : decode w = .ok i ↔ w = encode i := by
  rw [eq_encode_iff]
  by_cases h : rsvdField w = 0#28
  · rw [decode_of_rsvd_zero h, decodeOp_eq_ok_iff, and_iff_right h]
  · simp [decode_of_rsvd_ne h, h]

theorem decode_eq_error_iff (w : Word) :
    (∃ e, decode w = .error e) ↔ rsvdField w ≠ 0#28 ∨ 9 ≤ (opField w).toNat := by
  by_cases h : rsvdField w = 0#28
  · rw [decode_of_rsvd_zero h, decodeOp_eq_error_iff, or_iff_right (not_not.2 h)]
  · simp [decode_of_rsvd_ne h, h]

end Sys2Proof

namespace Sys2Proof.Proofs

/-- Settles O6: one equivalence for the words that the decoder accepts and one for those it rejects, each read off from
the word's two fields. -/
theorem decodeAcceptsExactlyTheOpcodeMap : Obligations.DecodeAcceptsExactlyTheOpcodeMap := by
  refine ⟨decode_eq_ok_iff, fun w => ?_⟩
  rw [decode_eq_error_iff, ne_eq, rsvdField_eq_zero_iff, opField_toNat]

end Sys2Proof.Proofs

/-! PROOFS. The control commands (40_control.md): what a completion without an error writes, and from it the statement
of O11. -/

namespace Sys2Proof.Machine

/-- A completion without an error writes three fields of the block (60_exceptions.md R204). -/
theorem complete_eq (s : State) :
    complete s = .next { s with blk := { s.blk with busy := false, done := true, errcode := 0 } } := rfl

/-- NOP is its completion alone (40_control.md R100). -/
theorem exec_nop (s : State) : exec .nop s = complete s := rfl

end Sys2Proof.Machine

namespace Sys2Proof.Proofs
open Sys2Proof.Machine

/-- Settles O11: NOP's word is opcode 0 with RSVD 0, and NOP is a completion with no write to an operand before it. -/
theorem nopOnlyCompletes : Obligations.NopOnlyCompletes :=
  ⟨by decide, fun s => (exec_nop s).trans (complete_eq s)⟩

end Sys2Proof.Proofs

/-! PROOFS. Modular and Montgomery multiplication (41_modmul.md): the extended Euclid engine's inverse (43_gcd_inverse.md
R171), the Montgomery radix and its inverse (R124), what MONTMUL makes of a Montgomery form, a rule for each branch of the
four commands, and from them the statements of O12 to O15 and O47. -/

namespace Sys2Proof.Machine

/-! The inverse that the extended Euclid loop computes (00_scope.md R9, 43_gcd_inverse.md R171). -/

/-- The fuel of R171 is enough from the loop's first remainders m and a mod m. -/
theorem mul_mod_lt_two_pow_fuel (a : Nat) {m : Nat} (hm : 0 < m) : m * (a % m) < 2 ^ (2 * bitlen m + 1) := by
  have hlt := lt_two_pow_bitlen m
  calc m * (a % m) < 2 ^ bitlen m * 2 ^ bitlen m := Nat.mul_lt_mul'' hlt ((Nat.mod_lt a hm).trans hlt)
    _ = 2 ^ (2 * bitlen m) := by rw [← pow_add, two_mul]
    _ ≤ 2 ^ (2 * bitlen m + 1) := Nat.pow_le_pow_right two_pos (Nat.le_succ _)

/-- The normalised coefficient is congruent to the loop's signed one. -/
theorem xgcdInv_snd_modEq (a : Nat) {m : Nat} (hm : 0 < m) :
    ((xgcdInv a m).2 : Int) ≡ (xgcdLoop (2 * bitlen m + 1) m (a % m) 0 1).2 [ZMOD m] := by
  simp only [xgcdInv, Int.toNat_of_nonneg (Int.emod_nonneg _ (Int.natCast_ne_zero.2 hm.ne'))]
  exact Int.mod_modEq _ _

/-- `xgcd_inv` returns the gcd, and a coefficient of a for it modulo m. -/
theorem xgcdInv_spec (a : Nat) {m : Nat} (hm : 0 < m) :
    (xgcdInv a m).1 = Nat.gcd a m ∧ a * (xgcdInv a m).2 ≡ Nat.gcd a m [MOD m] := by
  have hstart : (m : Int) ∣ (a % m : Nat) - 1 * (a : Int) := by
    simpa using (Int.mod_modEq (a : Int) m).symm.dvd
  obtain ⟨hgcd, hcoef⟩ := xgcdLoop_spec a m (2 * bitlen m + 1) m (a % m) 0 1 (Nat.mod_lt a hm).le
    (mul_mod_lt_two_pow_fuel a hm) (by simp) hstart
  rw [Nat.gcd_comm, ← Nat.gcd_rec, Nat.gcd_comm] at hgcd
  refine ⟨hgcd, Int.natCast_modEq_iff.1 ?_⟩
  rw [hgcd] at hcoef
  push_cast
  calc (a : Int) * (xgcdInv a m).2
      ≡ a * (xgcdLoop (2 * bitlen m + 1) m (a % m) 0 1).2 [ZMOD m] := (xgcdInv_snd_modEq a hm).mul_left _
    _ ≡ Nat.gcd a m [ZMOD m] := by rw [mul_comm]; exact Int.modEq_iff_dvd.2 hcoef

theorem inv_lt (a : Nat) {m : Nat} (hm : 0 < m) : inv a m < m := xgcdInv_lt a hm

/-- What 00_scope.md R9 asks of inv(a, m). -/
theorem mul_inv_modEq_one {a m : Nat} (hm : 0 < m) (h : Nat.Coprime a m) : a * inv a m ≡ 1 [MOD m] :=
  h ▸ (xgcdInv_spec a hm).2

/-! The Montgomery radix 2^OPW and its inverse modulo an odd m (41_modmul.md R124). -/

theorem coprime_two_pow_mod (w : Nat) {m : Nat} (hm : m % 2 = 1) : Nat.Coprime (2 ^ w % m) m := by
  rw [Nat.Coprime, ← Nat.gcd_rec, Nat.gcd_comm]
  exact ((Nat.coprime_two_left.2 (Nat.odd_iff.2 hm)).pow_left w)

section
variable {m : Nat} (hm : m % 2 = 1)
include hm

theorem pos_of_mod_two_eq_one : 0 < m := by omega

theorem radix_mod_mul_inv_modEq_one (w : Nat) : (2 ^ w % m) * inv (2 ^ w % m) m ≡ 1 [MOD m] :=
  mul_inv_modEq_one (pos_of_mod_two_eq_one hm) (coprime_two_pow_mod w hm)

theorem radix_mul_inv_modEq_one (w : Nat) : 2 ^ w * inv (2 ^ w % m) m ≡ 1 [MOD m] :=
  ((Nat.mod_modEq _ m).symm.mul_right _).trans (radix_mod_mul_inv_modEq_one hm w)

/-- MONTMUL with a Montgomery form takes the radix off it: the law from which those of R135 follow. -/
theorem montMul_mulMod_radix (w a b : Nat) : montMul w a (mulMod b (2 ^ w) m) m = a * b % m := by
  change a * (b * 2 ^ w % m) * inv (2 ^ w % m) m ≡ a * b [MOD m]
  calc a * (b * 2 ^ w % m) * inv (2 ^ w % m) m
      ≡ a * (b * 2 ^ w) * inv (2 ^ w % m) m [MOD m] := ((Nat.mod_modEq _ m).mul_left a).mul_right _
    _ = a * b * (2 ^ w * inv (2 ^ w % m) m) := by ring
    _ ≡ a * b * 1 [MOD m] := (radix_mul_inv_modEq_one hm w).mul_left _
    _ = a * b := mul_one _

end

theorem montMul_comm (w a b m : Nat) : montMul w a b m = montMul w b a m := by rw [montMul, montMul, mul_comm a b]
theorem montMul_one (w a m : Nat) : montMul w a 1 m = a * inv (2 ^ w % m) m % m := by rw [montMul, mul_one]
theorem montMul_lt (w a b : Nat) {m : Nat} (hm : 0 < m) : montMul w a b m < m := Nat.mod_lt _ hm

/-- A product with a Montgomery form is the form of the product. -/
theorem mulMod_mul_mod (x y r m : Nat) : mulMod x r m * y % m = mulMod (x * y % m) r m := by
  rw [mulMod, mulMod, Nat.mod_mul_mod, Nat.mod_mul_mod, mul_right_comm]

/-! The endings of a command (60_exceptions.md R203, R204). -/

theorem raiseError_eq (c : ErrCode) (s : State) :
    raiseError c s = .next { s with blk := { s.blk with busy := false, done := true, errcode := c.code } } := rfl

theorem complete_setR_eq (s : State) (v : Nat) :
    complete (s.setR v) =
      .next { s with blk := { s.blk with R := v, busy := false, done := true, errcode := 0 } } := rfl

/-! The branches of the four commands (41_modmul.md R120, R125, R130, R133). -/

section
variable {s : State}

theorem exec_modmul_of_zero (h0 : s.blk.N = 0) : exec .modmul s = raiseError .zeroModulus s := if_pos h0
theorem exec_modmul_of_ne_zero (h0 : s.blk.N ≠ 0) :
    exec .modmul s = complete (s.setR (mulMod s.blk.A s.blk.B s.blk.N)) := if_neg h0

theorem exec_montmul_of_zero (h0 : s.blk.N = 0) : exec .montmul s = raiseError .zeroModulus s := if_pos h0
theorem exec_montmul_of_even (h0 : s.blk.N ≠ 0) (h2 : s.blk.N % 2 = 0) :
    exec .montmul s = raiseError .evenModulus s := by
  simp [exec, execMontmul, h0, h2]
theorem exec_montmul_of_range (h2 : s.blk.N % 2 = 1) (hr : s.blk.N ≤ s.blk.A ∨ s.blk.N ≤ s.blk.B) :
    exec .montmul s = raiseError .operandRange s := by
  simp [exec, execMontmul, (pos_of_mod_two_eq_one h2).ne', h2, hr]
theorem exec_montmul_of_lt (h2 : s.blk.N % 2 = 1) (hA : s.blk.A < s.blk.N) (hB : s.blk.B < s.blk.N) :
    exec .montmul s = complete (s.setR (montMul s.params.opw s.blk.A s.blk.B s.blk.N)) := by
  simp [exec, execMontmul, (pos_of_mod_two_eq_one h2).ne', h2, hA, hB]

theorem exec_tomont_of_zero (h0 : s.blk.N = 0) : exec .tomont s = raiseError .zeroModulus s := if_pos h0
theorem exec_tomont_of_even (h0 : s.blk.N ≠ 0) (h2 : s.blk.N % 2 = 0) :
    exec .tomont s = raiseError .evenModulus s := by
  simp [exec, execTomont, h0, h2]
theorem exec_tomont_of_odd (h2 : s.blk.N % 2 = 1) :
    exec .tomont s = complete (s.setR (mulMod s.blk.A (2 ^ s.params.opw) s.blk.N)) := by
  simp [exec, execTomont, (pos_of_mod_two_eq_one h2).ne', h2]

theorem exec_frommont_of_zero (h0 : s.blk.N = 0) : exec .frommont s = raiseError .zeroModulus s := if_pos h0
theorem exec_frommont_of_even (h0 : s.blk.N ≠ 0) (h2 : s.blk.N % 2 = 0) :
    exec .frommont s = raiseError .evenModulus s := by
  simp [exec, execFrommont, h0, h2]
theorem exec_frommont_of_range (h2 : s.blk.N % 2 = 1) (hr : s.blk.N ≤ s.blk.A) :
    exec .frommont s = raiseError .operandRange s := by
  simp [exec, execFrommont, (pos_of_mod_two_eq_one h2).ne', h2, hr]
theorem exec_frommont_of_lt (h2 : s.blk.N % 2 = 1) (hA : s.blk.A < s.blk.N) :
    exec .frommont s = complete (s.setR (montMul s.params.opw s.blk.A 1 s.blk.N)) := by
  simp [exec, execFrommont, (pos_of_mod_two_eq_one h2).ne', h2, hA]

end

end Sys2Proof.Machine

namespace Sys2Proof.Claims
open Sys2Proof.Machine

/-! The results of the four commands on operands of one's choice, when they succeed. -/

/-- A command that completes after a write of v to R has v as its result. -/
theorem resultOn_of_complete {i : Instr} {s t : State} {a b v : Nat}
    (h : exec i { s with blk := { s.blk with A := a, B := b } } = complete (t.setR v)) :
    resultOn i s a b = some v := by
  rw [resultOn, h]; rfl

section
variable {s : State} {a b : Nat}

theorem resultOn_modmul (h0 : s.blk.N ≠ 0) : resultOn .modmul s a b = some (mulMod a b s.blk.N) :=
  resultOn_of_complete (exec_modmul_of_ne_zero h0)
theorem resultOn_montmul (h2 : s.blk.N % 2 = 1) (ha : a < s.blk.N) (hb : b < s.blk.N) :
    resultOn .montmul s a b = some (montMul s.params.opw a b s.blk.N) :=
  resultOn_of_complete (exec_montmul_of_lt h2 ha hb)
theorem resultOn_tomont (h2 : s.blk.N % 2 = 1) :
    resultOn .tomont s a b = some (mulMod a (2 ^ s.params.opw) s.blk.N) :=
  resultOn_of_complete (exec_tomont_of_odd h2)
theorem resultOn_frommont (h2 : s.blk.N % 2 = 1) (ha : a < s.blk.N) :
    resultOn .frommont s a b = some (montMul s.params.opw a 1 s.blk.N) :=
  resultOn_of_complete (exec_frommont_of_lt h2 ha)

/-! The laws of R135, on the results. -/

/-- FROMMONT undoes TOMONT. -/
theorem resultOn_frommont_form (h2 : s.blk.N % 2 = 1) (ha : a < s.blk.N) :
    resultOn .frommont s (mulMod a (2 ^ s.params.opw) s.blk.N) b = some a := by
  rw [resultOn_frommont h2 (mulMod_lt _ _ (pos_of_mod_two_eq_one h2)), montMul_comm, montMul_mulMod_radix h2, one_mul,
    Nat.mod_eq_of_lt ha]

/-- MONTMUL on a and the form of b is a * b reduced. -/
theorem resultOn_montmul_form (h2 : s.blk.N % 2 = 1) (ha : a < s.blk.N) :
    resultOn .montmul s a (mulMod b (2 ^ s.params.opw) s.blk.N) = some (a * b % s.blk.N) := by
  rw [resultOn_montmul h2 ha (mulMod_lt _ _ (pos_of_mod_two_eq_one h2)), montMul_mulMod_radix h2]

end

end Sys2Proof.Claims

namespace Sys2Proof.Proofs
open Sys2Proof.Machine Sys2Proof.Claims

/-- Settles O47: the forms are TOMONT's results, and each law is MONTMUL taking the radix off one form. -/
theorem montgomeryDomainLaws : Obligations.MontgomeryDomainLaws := by
  intro s x y h2 hx hy
  have hpos : 0 < s.blk.N := pos_of_mod_two_eq_one h2
  have form_lt : ∀ a, mulMod a (2 ^ s.params.opw) s.blk.N < s.blk.N := fun a => mulMod_lt _ _ hpos
  refine ⟨_, _, _, _, resultOn_tomont h2, resultOn_tomont h2, resultOn_tomont h2, resultOn_tomont h2,
    form_lt _, form_lt _, form_lt _, form_lt _, resultOn_frommont_form h2 hx, ?product,
    resultOn_frommont_form h2 (Nat.mod_lt _ hpos), resultOn_modmul hpos.ne', fun a ha => ?unit, fun a b ha hb => ?chain⟩
  case product => rw [resultOn_montmul_form h2 (form_lt x), mulMod_mul_mod]
  case unit => rw [resultOn_montmul_form h2 ha, mul_one, Nat.mod_eq_of_lt ha]
  case chain =>
    have hz := montMul_lt s.params.opw a b hpos
    exact ⟨_, _, resultOn_montmul h2 ha hb, hz, resultOn_frommont h2 hz⟩

/-- Settles O13: a clause for each branch; x is the inverse that the extended Euclid engine computes. -/
theorem montmulMultipliesByTheRadixInverse : Obligations.MontmulMultipliesByTheRadixInverse := by
  refine ⟨by decide, fun s => ⟨fun h0 => ?zero, fun h0 h2 => ?even, fun h2 hr => ?range, fun h2 hA hB =>
    ⟨inv (2 ^ s.params.opw % s.blk.N) s.blk.N, inv_lt _ (pos_of_mod_two_eq_one h2),
      radix_mod_mul_inv_modEq_one h2 _, ?legal⟩⟩⟩
  case zero => exact (exec_montmul_of_zero h0).trans (raiseError_eq _ _)
  case even => exact (exec_montmul_of_even h0 h2).trans (raiseError_eq _ _)
  case range => exact (exec_montmul_of_range h2 hr).trans (raiseError_eq _ _)
  case legal => exact (exec_montmul_of_lt h2 hA hB).trans (complete_setR_eq _ _)

/-- Settles O15: as O13, with 1 in the place of B. -/
theorem frommontDividesByTheRadix : Obligations.FrommontDividesByTheRadix := by
  refine ⟨by decide, fun s => ⟨fun h0 => ?zero, fun h0 h2 => ?even, fun h2 hr => ?range, fun h2 hA =>
    ⟨inv (2 ^ s.params.opw % s.blk.N) s.blk.N, inv_lt _ (pos_of_mod_two_eq_one h2),
      radix_mod_mul_inv_modEq_one h2 _, ?legal⟩⟩⟩
  case zero => exact (exec_frommont_of_zero h0).trans (raiseError_eq _ _)
  case even => exact (exec_frommont_of_even h0 h2).trans (raiseError_eq _ _)
  case range => exact (exec_frommont_of_range h2 hr).trans (raiseError_eq _ _)
  case legal => rw [exec_frommont_of_lt h2 hA, montMul_one, complete_setR_eq]

/-- Settles O12: an error for N = 0, else the reduced product's write to R and a completion. -/
theorem modmulReducesTheExactProduct : Obligations.ModmulReducesTheExactProduct := by
  refine ⟨by decide, fun s => ⟨fun h0 => ?zero, fun h0 => ?legal⟩⟩
  case zero => exact (exec_modmul_of_zero h0).trans (raiseError_eq _ _)
  case legal => exact (exec_modmul_of_ne_zero h0).trans (complete_setR_eq _ _)

/-- Settles O14, a clause for each branch; A is reduced and not checked. -/
theorem tomontMultipliesByTheRadix : Obligations.TomontMultipliesByTheRadix := by
  refine ⟨by decide, fun s => ⟨fun h0 => ?zero, fun h0 h2 => ?even, fun h2 => ?odd⟩⟩
  case zero => exact (exec_tomont_of_zero h0).trans (raiseError_eq _ _)
  case even => exact (exec_tomont_of_even h0 h2).trans (raiseError_eq _ _)
  case odd => exact (exec_tomont_of_odd h2).trans (complete_setR_eq _ _)

end Sys2Proof.Proofs

/-! PROOFS. Modular exponentiation (42_modexp.md): the value of the square-and-multiply loop (R151), a rule for each
branch of MODEXP (R150), the arithmetic of RSA's round trip (R153), and from them the statements of O16 and O48. -/

namespace Sys2Proof.Machine

/-- `modexp_ref` computes the power: its loop starts from 1 and runs over every bit of k (42_modexp.md R151). -/
theorem powMod_eq (a k : Nat) {m : Nat} (hm : 0 < m) : powMod a k m = a ^ k % m := by
  have hlt : powMod a k m < m := powLoop_lt _ _ _ hm (Nat.mod_lt _ hm)
  calc powMod a k m
      = powMod a k m % m := (Nat.mod_eq_of_lt hlt).symm
    _ = (1 % m) ^ 2 ^ bitlen k * (a % m) ^ (k % 2 ^ bitlen k) % m := powLoop_mod _ _ _ _ _
    _ = (1 % m) ^ 2 ^ bitlen k * (a % m) ^ k % m := by rw [Nat.mod_eq_of_lt (lt_two_pow_bitlen k)]
    _ = 1 ^ 2 ^ bitlen k * a ^ k % m := ((Nat.mod_modEq 1 m).pow _).mul ((Nat.mod_modEq a m).pow _)
    _ = a ^ k % m := by rw [one_pow, one_mul]

/-! The branches of MODEXP (42_modexp.md R150). -/

section
variable {s : State}

theorem exec_modexp_of_zero (h0 : s.blk.N = 0) : exec .modexp s = raiseError .zeroModulus s := if_pos h0
theorem exec_modexp_of_ne_zero (h0 : s.blk.N ≠ 0) :
    exec .modexp s = complete (s.setR (s.blk.A ^ s.blk.E % s.blk.N)) := by
  rw [← powMod_eq _ _ (Nat.pos_of_ne_zero h0)]
  exact if_neg h0

/-- MODEXP with a modulus of at least 1 answers the power without an error, and leaves N for the next command. -/
theorem exec_modexp_answers (h0 : s.blk.N ≠ 0) :
    ∃ t, exec .modexp s = .next t ∧ t.blk.errcode = 0 ∧ t.blk.R = s.blk.A ^ s.blk.E % s.blk.N ∧
      t.blk.N = s.blk.N :=
  ⟨_, (exec_modexp_of_ne_zero h0).trans (complete_setR_eq _ _), rfl, rfl, rfl⟩

end

/-! The arithmetic of RSA (42_modexp.md R153). -/

/-- With k congruent to 1 modulo (p-1)(q-1), the k-th power is the identity modulo p * q, also for an a that p or q
divides: Fermat's theorem for each prime, and the two put together. -/
theorem pow_modEq_self_of_mod_eq_one {p q k : Nat} (hp : p.Prime) (hq : q.Prime) (hpq : p ≠ q)
    (hk : k % ((p - 1) * (q - 1)) = 1) (a : Nat) : a ^ k ≡ a [MOD p * q] := by
  have hpos : 0 < k := Nat.pos_of_ne_zero (by rintro rfl; simp at hk)
  have hdvd : (p - 1) * (q - 1) ∣ k - 1 := by
    simpa [hk] using Nat.dvd_sub_mod (n := (p - 1) * (q - 1)) k
  have fermat : ∀ {r : Nat}, r.Prime → r - 1 ∣ k - 1 → a ^ k ≡ a [MOD r] := fun hr hd =>
    Int.natCast_modEq_iff.1 (by simpa using Int.ModEq.pow_eq_pow hr hd hpos one_pos a)
  exact (Nat.modEq_and_modEq_iff_modEq_mul ((Nat.coprime_primes hp hq).2 hpq)).1
    ⟨fermat hp (dvd_of_mul_right_dvd hdvd), fermat hq (dvd_of_mul_left_dvd hdvd)⟩

end Sys2Proof.Machine

namespace Sys2Proof.Proofs
open Sys2Proof.Machine

/-- Settles O16: an error for N = 0, else the power's write to R and a completion. -/
theorem modexpRaisesToThePower : Obligations.ModexpRaisesToThePower := by
  refine ⟨by decide, fun s => ⟨fun h0 => ?zero, fun h0 => ?legal⟩⟩
  case zero => exact (exec_modexp_of_zero h0).trans (raiseError_eq _ _)
  case legal => exact (exec_modexp_of_ne_zero h0).trans (complete_setR_eq _ _)

/-- Settles O48: the first run leaves N as it is, so the second answers A to the power E * d modulo p * q. -/
theorem rsaRoundTrip : Obligations.RsaRoundTrip := by
  intro s p q d hp hq hpq hN hk hA
  have h0 : s.blk.N ≠ 0 := by
    rw [hN]
    exact Nat.mul_ne_zero hp.ne_zero hq.ne_zero
  have back : (s.blk.A ^ s.blk.E % s.blk.N) ^ d % s.blk.N = s.blk.A := by
    calc (s.blk.A ^ s.blk.E % s.blk.N) ^ d % s.blk.N
        = s.blk.A ^ (s.blk.E * d) % s.blk.N := by rw [← Nat.pow_mod, ← pow_mul]
      _ = s.blk.A % s.blk.N := hN ▸ pow_modEq_self_of_mod_eq_one hp hq hpq hk s.blk.A
      _ = s.blk.A := Nat.mod_eq_of_lt hA
  obtain ⟨t, ht, hterr, htR, htN⟩ := exec_modexp_answers h0
  obtain ⟨u, hu, huerr, huR, -⟩ :=
    exec_modexp_answers (s := { t with blk := { t.blk with A := t.blk.R, E := d } }) (htN ▸ h0)
  refine ⟨t, u, ht, hterr, htR, hu, huerr, ?_⟩
  calc u.blk.R = t.blk.R ^ d % t.blk.N := huR
    _ = s.blk.A := by rw [htR, htN, back]

end Sys2Proof.Proofs

/-! PROOFS. The extended Euclidean engine's commands (43_gcd_inverse.md): what GCD answers (R170), a rule for each branch
of MODINV (R172), what a MODINV without an error says of N, A and R (R174), and from them the statements of O17, O18 and
O49. -/

namespace Sys2Proof.Machine

/-! The inverse of a reduced operand (00_scope.md R9): MODINV hands A mod N to the engine. -/

theorem coprime_mod {a m : Nat} (h : Nat.gcd a m = 1) : Nat.Coprime (a % m) m := by
  rw [Nat.Coprime, ← Nat.gcd_rec, Nat.gcd_comm, h]

/-- The inverse of a mod m is an inverse of a. -/
theorem mul_inv_mod_modEq_one {a m : Nat} (hm : 0 < m) (h : Nat.gcd a m = 1) : a * inv (a % m) m ≡ 1 [MOD m] :=
  ((Nat.mod_modEq a m).symm.mul_right _).trans (mul_inv_modEq_one hm (coprime_mod h))

/-! The branches of the two commands (43_gcd_inverse.md R170, R172). -/

theorem exec_gcd (s : State) :
    exec .gcd s = .next { s with blk := { s.blk with
      R := Nat.gcd s.blk.A s.blk.B, G := Nat.gcd s.blk.A s.blk.B, busy := false, done := true, errcode := 0 } } := rfl

section
variable {s : State}

theorem exec_modinv_of_zero (h0 : s.blk.N = 0) :
    exec .modinv s = .next { s with blk := { s.blk with busy := false, done := true, errcode := 2 } } :=
  if_pos h0
theorem exec_modinv_of_gcd_ne_one (h0 : s.blk.N ≠ 0) (hg : Nat.gcd s.blk.A s.blk.N ≠ 1) :
    exec .modinv s = .next { s with blk := { s.blk with
      G := Nat.gcd s.blk.A s.blk.N, busy := false, done := true, errcode := 5 } } :=
  (if_neg h0).trans (if_pos hg)
theorem exec_modinv_of_gcd_eq_one (h0 : s.blk.N ≠ 0) (hg : Nat.gcd s.blk.A s.blk.N = 1) :
    exec .modinv s = .next { s with blk := { s.blk with
      R := inv (s.blk.A % s.blk.N) s.blk.N, G := 1, busy := false, done := true, errcode := 0 } } := by
  rw [← hg]
  exact (if_neg h0).trans (if_neg (not_not.2 hg))

/-- Without an error, R is reduced and an inverse of A: each of the other branches answers an error. -/
theorem exec_modinv_success {t : State} (h : exec .modinv s = .next t) (he : t.blk.errcode = 0) :
    t.blk.R < s.blk.N ∧ s.blk.A * t.blk.R ≡ 1 [MOD s.blk.N] := by
  by_cases h0 : s.blk.N = 0
  · cases (exec_modinv_of_zero h0).symm.trans h
    exact absurd he (by decide : (2 : Fin 16) ≠ 0)
  have hpos : 0 < s.blk.N := Nat.pos_of_ne_zero h0
  by_cases hg : Nat.gcd s.blk.A s.blk.N = 1
  · cases (exec_modinv_of_gcd_eq_one h0 hg).symm.trans h
    exact ⟨inv_lt _ hpos, mul_inv_mod_modEq_one hpos hg⟩
  · cases (exec_modinv_of_gcd_ne_one h0 hg).symm.trans h
    exact absurd he (by decide : (5 : Fin 16) ≠ 0)

end

end Sys2Proof.Machine

namespace Sys2Proof.Proofs
open Sys2Proof.Machine

/-- Settles O18, a clause for each branch; x is the inverse that the extended Euclid engine computes. -/
theorem modinvInvertsOrReportsTheGcd : Obligations.ModinvInvertsOrReportsTheGcd := by
  refine ⟨by decide, fun s => ⟨exec_modinv_of_zero, exec_modinv_of_gcd_ne_one, fun h0 hg => ?invertible⟩⟩
  have hpos : 0 < s.blk.N := Nat.pos_of_ne_zero h0
  exact ⟨inv (s.blk.A % s.blk.N) s.blk.N, inv_lt _ hpos, mul_inv_mod_modEq_one hpos hg,
    exec_modinv_of_gcd_eq_one h0 hg⟩

/-- Settles O49: 1 is its own residue modulo an N above 1, and 0 is the only value below N = 1. -/
theorem successfulInverseMultipliesToOne : Obligations.SuccessfulInverseMultipliesToOne := by
  intro s t h he
  obtain ⟨hlt, hinv⟩ := exec_modinv_success h he
  refine ⟨fun hN => ?above, fun hN => ?one⟩
  case above => exact Eq.trans hinv (Nat.mod_eq_of_lt hN)
  case one => exact Nat.lt_one_iff.1 (hN ▸ hlt)

/-- Settles O17: g is the gcd of A and B, whichever of them is 0. -/
theorem gcdWritesBothResults : Obligations.GcdWritesBothResults :=
  ⟨by decide, fun s => ⟨Nat.gcd s.blk.A s.blk.B, Nat.gcd_dvd_left _ _, Nat.gcd_dvd_right _ _,
    fun _ => Nat.dvd_gcd, exec_gcd s⟩⟩

end Sys2Proof.Proofs

/-! PROOFS. The bit-length query (44_bitlen.md R190): what BITLEN answers, and from it the statement of O19. -/

namespace Sys2Proof.Machine

theorem exec_bitlen (s : State) : exec .bitlen s = complete (s.setR (bitlen s.blk.A)) := rfl

end Sys2Proof.Machine

namespace Sys2Proof.Proofs
open Sys2Proof.Machine

/-- Settles O19: k is A's bit length, and its bound by OPW is its leastness at the exponent OPW. -/
theorem bitlenIsTheLeastExponent : Obligations.BitlenIsTheLeastExponent := by
  refine ⟨by decide, fun s => ?answer⟩
  have least : ∀ j, s.blk.A < 2 ^ j → bitlen s.blk.A ≤ j := fun _ => bitlen_le_of_lt
  exact ⟨bitlen s.blk.A, lt_two_pow_bitlen _, least, least s.params.opw,
    (exec_bitlen s).trans (complete_setR_eq _ _)⟩

end Sys2Proof.Proofs

/-! PROOFS. Errors, completion and the interrupt (60_exceptions.md): the code of the first error that applies (R202), what a
failed command writes (R203), the completion beside the host's writes to STATUS, CMD and CTRL (R210, R212), and from them
the statements of O20, O21, O24 and O25. -/

namespace Sys2Proof.Machine

/-! The codes as numbers (60_exceptions.md R201). -/

@[simp] theorem ErrCode.code_ok : ErrCode.ok.code = 0 := rfl
@[simp] theorem ErrCode.code_zeroModulus : ErrCode.zeroModulus.code = 2 := rfl
@[simp] theorem ErrCode.code_evenModulus : ErrCode.evenModulus.code = 3 := rfl
@[simp] theorem ErrCode.code_operandRange : ErrCode.operandRange.code = 4 := rfl

end Sys2Proof.Machine

namespace Sys2Proof.Claims
open Sys2Proof.Machine

/-! The first applicable error of each command that checks any (60_exceptions.md R202), its checks in order. -/

@[simp] theorem firstError_modmul (b : Block) : firstError .modmul b = if b.N = 0 then 2 else 0 := by
  split_ifs with h0 <;> simp [firstError, errorTable, h0]
@[simp] theorem firstError_modexp (b : Block) : firstError .modexp b = if b.N = 0 then 2 else 0 := by
  split_ifs with h0 <;> simp [firstError, errorTable, h0]
@[simp] theorem firstError_modinv (b : Block) :
    firstError .modinv b = if b.N = 0 then 2 else if Nat.gcd b.A b.N ≠ 1 then 5 else 0 := by
  split_ifs with h0 hg <;> simp [firstError, errorTable, *]
@[simp] theorem firstError_tomont (b : Block) :
    firstError .tomont b = if b.N = 0 then 2 else if b.N % 2 = 0 then 3 else 0 := by
  split_ifs with h0 h2 <;> simp [firstError, errorTable, *]
@[simp] theorem firstError_frommont (b : Block) :
    firstError .frommont b = if b.N = 0 then 2 else if b.N % 2 = 0 then 3 else if b.N ≤ b.A then 4 else 0 := by
  split_ifs with h0 h2 hr <;> simp [firstError, errorTable, *]
@[simp] theorem firstError_montmul (b : Block) :
    firstError .montmul b =
      if b.N = 0 then 2 else if b.N % 2 = 0 then 3 else if b.N ≤ b.A ∨ b.N ≤ b.B then 4 else 0 := by
  split_ifs with h0 h2 hr <;> simp [firstError, errorTable, *]

/-- Each command answers with the code of the first of its checks that applies: a case for each branch of the command. -/
theorem exec_reports_firstError (i : Instr) (s : State) :
    ∃ t, exec i s = .next t ∧ t.blk.errcode = firstError i s.blk := by
  cases i
  case nop => exact ⟨_, exec_nop s, rfl⟩
  case gcd => exact ⟨_, exec_gcd s, rfl⟩
  case bitlen => exact ⟨_, exec_bitlen s, rfl⟩
  case modmul =>
    by_cases h0 : s.blk.N = 0
    · exact ⟨_, exec_modmul_of_zero h0, by simp [h0]⟩
    · exact ⟨_, exec_modmul_of_ne_zero h0, by simp [h0]⟩
  case modexp =>
    by_cases h0 : s.blk.N = 0
    · exact ⟨_, exec_modexp_of_zero h0, by simp [h0]⟩
    · exact ⟨_, exec_modexp_of_ne_zero h0, by simp [h0]⟩
  case modinv =>
    by_cases h0 : s.blk.N = 0
    · exact ⟨_, exec_modinv_of_zero h0, by simp [h0]⟩
    by_cases hg : Nat.gcd s.blk.A s.blk.N = 1
    · exact ⟨_, exec_modinv_of_gcd_eq_one h0 hg, by simp [h0, hg]⟩
    · exact ⟨_, exec_modinv_of_gcd_ne_one h0 hg, by simp [h0, hg]⟩
  case tomont =>
    by_cases h0 : s.blk.N = 0
    · exact ⟨_, exec_tomont_of_zero h0, by simp [h0]⟩
    rcases Nat.mod_two_eq_zero_or_one s.blk.N with h2 | h2
    · exact ⟨_, exec_tomont_of_even h0 h2, by simp [h0, h2]⟩
    · exact ⟨_, exec_tomont_of_odd h2, by simp [h0, h2]⟩
  case frommont =>
    by_cases h0 : s.blk.N = 0
    · exact ⟨_, exec_frommont_of_zero h0, by simp [h0]⟩
    rcases Nat.mod_two_eq_zero_or_one s.blk.N with h2 | h2
    · exact ⟨_, exec_frommont_of_even h0 h2, by simp [h0, h2]⟩
    rcases Nat.lt_or_ge s.blk.A s.blk.N with hA | hA
    · exact ⟨_, exec_frommont_of_lt h2 hA, by simp [h0, h2, hA]⟩
    · exact ⟨_, exec_frommont_of_range h2 hA, by simp [h0, h2, hA]⟩
  case montmul =>
    by_cases h0 : s.blk.N = 0
    · exact ⟨_, exec_montmul_of_zero h0, by simp [h0]⟩
    rcases Nat.mod_two_eq_zero_or_one s.blk.N with h2 | h2
    · exact ⟨_, exec_montmul_of_even h0 h2, by simp [h0, h2]⟩
    by_cases hr : s.blk.N ≤ s.blk.A ∨ s.blk.N ≤ s.blk.B
    · exact ⟨_, exec_montmul_of_range h2 hr, by simp [h0, h2, hr]⟩
    · obtain ⟨hA, hB⟩ := not_or.1 hr
      exact ⟨_, exec_montmul_of_lt h2 (Nat.lt_of_not_le hA) (Nat.lt_of_not_le hB), by simp [h0, h2, hr]⟩

end Sys2Proof.Claims

namespace Sys2Proof.Machine

/-! A failed command (60_exceptions.md R203). -/

/-- The two errors of MODINV: only NOT_INVERTIBLE writes G. -/
theorem exec_modinv_failed {s t : State} (h : exec .modinv s = .next t) (he : t.blk.errcode ≠ 0) :
    t = { s with blk := { s.blk with busy := false, done := true, errcode := 2 } } ∨
    t = { s with blk := { s.blk with
      G := Nat.gcd s.blk.A s.blk.N, busy := false, done := true, errcode := 5 } } := by
  by_cases h0 : s.blk.N = 0
  · cases (exec_modinv_of_zero h0).symm.trans h
    exact .inl rfl
  by_cases hg : Nat.gcd s.blk.A s.blk.N = 1
  · cases (exec_modinv_of_gcd_eq_one h0 hg).symm.trans h
    exact absurd rfl he
  · cases (exec_modinv_of_gcd_ne_one h0 hg).symm.trans h
    exact .inr rfl

/-- The errors of the other commands: GCD has none, and the rest write neither R nor G. -/
theorem exec_failed_of_ne_modinv {i : Instr} {s t : State} (hi : i ≠ .modinv) (h : exec i s = .next t)
    (he : t.blk.errcode ≠ 0) :
    t = { s with blk := { s.blk with busy := false, done := true, errcode := t.blk.errcode } } := by
  by_cases hg : i = .gcd
  · subst hg
    cases (exec_gcd s).symm.trans h
    exact absurd rfl he
  · obtain ⟨r, g, c, hc, hR, hG⟩ := exec_next i s
    cases hc.symm.trans h
    have hne : c ≠ .ok := by
      rintro rfl
      exact he rfl
    rw [hR (.inl hne), hG hg hi]
    rfl

/-! The acknowledgement and IRQ (60_exceptions.md R210, R214). -/

/-- The acknowledgement writes DONE and leaves OVERRUN, whose bit it does not set. -/
theorem Block.writeStatus_ack (b : Block) : b.writeStatus 0x00000002#32 = { b with done := false } := by
  simp [Block.writeStatus_eq_ite]

theorem Block.irq_eq_true_iff (b : Block) : b.irq = true ↔ b.irqEn = true ∧ b.done = true := by simp [Block.irq]
theorem Block.irq_of_not_done {b : Block} (h : b.done = false) : b.irq = false := by simp [Block.irq, h]
theorem Block.irq_of_masked {b : Block} (h : b.irqEn = false) : b.irq = false := by simp [Block.irq, h]
theorem Block.irq_of_enabled {b : Block} (h : b.irqEn = true) : b.irq = b.done := by simp [Block.irq, h]

end Sys2Proof.Machine

namespace Sys2Proof.Proofs
open Sys2Proof.Machine Sys2Proof.Claims

/-- Settles O20: an illegal word fails before any check, and a legal one runs its command. -/
theorem firstApplicableErrorIsReported : Obligations.FirstApplicableErrorIsReported := by
  intro s hb
  refine ⟨fun e hd => ⟨_, engineStep_illegal hb hd, rfl⟩, fun i hd => ?_⟩
  rw [engineStep_exec hb hd]
  exact exec_reports_firstError i s

/-- Settles O21: by the word in flight, which is illegal, MODINV's or another command's. -/
theorem failedCommandWritesOnlyStatus : Obligations.FailedCommandWritesOnlyStatus := by
  intro s t hb h
  refine ⟨fun he hne => ?statusOnly, fun hd he => ?notInvertible, ?operands⟩
  case statusOnly =>
    cases hd : decode s.blk.cmd with
    | error e => cases (engineStep_illegal hb hd).symm.trans h; rfl
    | ok i =>
      have hx : exec i s = .next t := (engineStep_exec hb hd).symm.trans h
      by_cases hi : i = .modinv
      · subst hi
        rcases exec_modinv_failed hx he with rfl | rfl
        · rfl
        · exact absurd ⟨hd, rfl⟩ hne
      · exact exec_failed_of_ne_modinv hi hx he
  case notInvertible =>
    have hx : exec .modinv s = .next t := (engineStep_exec hb hd).symm.trans h
    rcases exec_modinv_failed hx (by rw [he]; decide) with rfl | ht
    · exact absurd he (by decide : (2 : Fin 16) ≠ 5)
    · exact ht
  case operands =>
    obtain ⟨r, g, c, hc⟩ := engineStep_busy hb
    cases hc.symm.trans h
    exact ⟨rfl, rfl, rfl, rfl⟩

/-- Settles O24: under the invariant DONE is 0 until the completion, which leaves BUSY = 0 and DONE = 1. -/
theorem orderOfWriteAndCompletionDecides : Obligations.OrderOfWriteAndCompletionDecides := by
  intro s w ⟨_, _, _, hflight⟩ hb
  obtain ⟨hdone, -⟩ := hflight hb
  have ack : memWrite s 0x010 0x00000002#32 = s := by
    rw [memWrite_status, Block.writeStatus_ack, ← hdone]; rfl
  obtain ⟨r, g, c, hc⟩ := engineStep_busy hb
  refine ⟨by rw [ack, hdone], ack, ?dropped, ?cancelled, _, hc, rfl, ?acknowledged, ?accepted⟩
  case dropped => rw [memWrite_cmd, Block.writeCmd_of_busy w hb]; rfl
  case cancelled =>
    rw [memWrite_ctrl, Block.writeCtrl_of_sreset _ (by decide)]
    exact engineStep_idle rfl
  case acknowledged => rw [memWrite_status, Block.writeStatus_ack]; rfl
  case accepted => rw [memWrite_cmd, Block.writeCmd_of_idle w rfl]; rfl

/-- Settles O25: the writes of CTRL change only IRQ_EN, and each of the other writes leaves DONE = 0. -/
theorem irqFollowsEnableAndDone : Obligations.IrqFollowsEnableAndDone := by
  intro s w v
  have ctrl : ∀ u : Word, u.getLsbD 1 = false →
      (memWrite s 0x008 u).blk = { s.blk with irqEn := u.getLsbD 0 } := fun u hu => by
    rw [memWrite_ctrl, Block.writeCtrl_of_not_sreset _ hu, State.withBlk_blk]
  have mask := ctrl 0x00000000#32 (by decide)
  have enable := ctrl 0x00000001#32 (by decide)
  refine ⟨fun l => ?line, ?masked, ?kept, ?enabled, fun hv => ?cleared, fun hb => ?accepted, fun hv => ?softReset,
    Block.irq_reset⟩
  case line => simp [State.irqLevel, Block.irq_eq_true_iff]
  case masked => rw [mask]; exact Block.irq_of_masked rfl
  case kept => rw [mask]
  case enabled => rw [enable]; exact Block.irq_of_enabled rfl
  case cleared =>
    rw [memWrite_status, State.withBlk_blk]
    exact Block.irq_of_not_done (by simp [hv])
  case accepted =>
    rw [memWrite_cmd, Block.writeCmd_of_idle w hb]
    exact Block.irq_of_not_done rfl
  case softReset =>
    rw [memWrite_ctrl, Block.writeCtrl_of_sreset _ hv]
    exact Block.irq_reset

end Sys2Proof.Proofs

/-! PROOFS. Commands as byte sequences (20_memory.md R66, 30_encoding.md R83, R85): a word and its four byte lanes
determine each other, the byte decoder on four bytes is the decoder on their word, and from that the statements of O7
and O5. -/

namespace Sys2Proof

/-! A word and its byte lanes (20_memory.md R66). -/

theorem lanesOfWord_wordOfLanes (b0 b1 b2 b3 : Byte) : lanesOfWord (wordOfLanes b0 b1 b2 b3) = [b0, b1, b2, b3] := by
  simp only [lanesOfWord, wordOfLanes, List.cons.injEq, and_true]
  refine ⟨?_, ?_, ?_, ?_⟩ <;> ext j hj <;> grind

theorem wordOfLanes_lanes (w : Word) :
    wordOfLanes (w.extractLsb' 0 8) (w.extractLsb' 8 8) (w.extractLsb' 16 8) (w.extractLsb' 24 8) = w := by
  ext j hj
  simp only [wordOfLanes]
  grind

/-- Four bytes make a word exactly if they are its lanes. -/
theorem wordOfLanes_eq_iff (b0 b1 b2 b3 : Byte) (w : Word) :
    wordOfLanes b0 b1 b2 b3 = w ↔ [b0, b1, b2, b3] = lanesOfWord w := by
  refine ⟨fun h => h ▸ (lanesOfWord_wordOfLanes b0 b1 b2 b3).symm, fun h => ?_⟩
  simp only [lanesOfWord, List.cons.injEq, and_true] at h
  obtain ⟨rfl, rfl, rfl, rfl⟩ := h
  exact wordOfLanes_lanes w

/-! The byte decoder (30_encoding.md R85). -/

/-- On four bytes and more, the decoder reads their word and leaves the bytes after them. -/
theorem decodeBytes_eq_ok_iff (b0 b1 b2 b3 : Byte) (bs rest : List Byte) (i : Instr) :
    decodeBytes (b0 :: b1 :: b2 :: b3 :: bs) = .ok (i, rest) ↔ wordOfLanes b0 b1 b2 b3 = encode i ∧ bs = rest := by
  rw [decodeBytes, ← decode_eq_ok_iff]
  cases decode (wordOfLanes b0 b1 b2 b3) <;> simp

end Sys2Proof

namespace Sys2Proof.Proofs

/-- Settles O7: four bytes are a command's exactly if their word is its word, and a shorter sequence is none. -/
theorem bytesDecodeExactlyWhenEncoded : Obligations.BytesDecodeExactlyWhenEncoded := by
  intro bs rest i
  match bs with
  | b0 :: b1 :: b2 :: b3 :: bs =>
    rw [decodeBytes_eq_ok_iff, wordOfLanes_eq_iff]
    simp [encodeBytes, lanesOfWord, and_assoc]
  | [] | [_] | [_, _] | [_, _, _] => simp [decodeBytes, encodeBytes, lanesOfWord]

/-- Settles O5: the nine legal words, and one word for each way of being illegal. -/
theorem opcodeMapWordsDecode : Obligations.OpcodeMapWordsDecode :=
  ⟨rfl, rfl, rfl, rfl, rfl, rfl, rfl, rfl, rfl, rfl, rfl⟩

end Sys2Proof.Proofs

/-! PROOFS. What every step keeps (10_state.md sections 1, 4 and 5; 60_exceptions.md sections 1 and 2): the operand
registers' bound and the legal STATUS through each update of the block, the part of the state that a command reads through
each step while BUSY stays 1, and from them the statements of O42, O43 and O46. -/

namespace Sys2Proof.Machine

/-! The operand registers' bound (10_state.md R20), through each update of the block that touches a register. -/

theorem Block.fits_iff {b : Block} {w : Nat} : b.Fits w ↔ ∀ x, b.get x < 2 ^ w := by
  refine ⟨fun ⟨hA, hB, hE, hN, hR, hG⟩ x => ?_, fun h => ⟨h .a, h .b, h .e, h .n, h .r, h .g⟩⟩
  cases x <;> assumption

theorem Block.fits_reset (w : Nat) : Block.reset.Fits w := Block.fits_iff.2 fun x => by
  cases x <;> exact Nat.two_pow_pos w

theorem Block.Fits.set {b : Block} {w v : Nat} (h : b.Fits w) (x : Operand) (hv : v < 2 ^ w) : (b.set x v).Fits w := by
  rw [Block.fits_iff] at h ⊢
  intro y
  by_cases hy : y = x
  · rwa [hy, Block.get_set_self]
  · rw [Block.get_set_ne b x y v hy]
    exact h y

/-- Word k of a register is below its width while k is below NW (00_scope.md R6). -/
theorem Params.word_le_opw {p : Params} {k : Nat} (hk : k < p.nw) : 32 * k + 32 ≤ p.opw := by
  rw [Params.opw]
  omega

/-! A legal STATUS (60_exceptions.md R201, R212), through each update of the block that writes a field of it. -/

theorem Block.statusLegal_reset : Block.reset.StatusLegal := by decide

theorem Block.statusLegal_acceptCommand (b : Block) (v : Word) : (b.acceptCommand v).StatusLegal :=
  ⟨Nat.zero_le 5, fun _ => ⟨rfl, rfl⟩⟩

theorem Block.statusLegal_commit (b : Block) (c : ErrCode) : (b.commit c).StatusLegal :=
  ⟨c.code_le, fun h => absurd h Bool.false_ne_true⟩

theorem Block.StatusLegal.writeStatus {b : Block} (h : b.StatusLegal) (v : Word) : (b.writeStatus v).StatusLegal := by
  obtain ⟨hcode, hflight⟩ := h
  refine ⟨hcode, fun hb => ?_⟩
  obtain ⟨hdone, herr⟩ := hflight hb
  exact ⟨by rw [Block.writeStatus_done, hdone, Bool.false_and], herr⟩

theorem Block.StatusLegal.set {b : Block} (h : b.StatusLegal) (x : Operand) (v : Nat) : (b.set x v).StatusLegal := by
  simpa [Block.StatusLegal] using h

/-! The invariant through each agent's move. -/

theorem hostStep_keeps_inv {s t : State} (hi : s.Inv) (h : hostStep s = .next t) : t.Inv := by
  obtain ⟨hlegal, hfits, hstatus⟩ := hi
  rw [State.Inv, (hostStep_params h).1]
  refine ⟨hlegal, ?_⟩
  rcases hostStep_blk h with e | e | ⟨q, e⟩ | ⟨v, -, e⟩ | ⟨v, e⟩ | ⟨-, e, -⟩ | ⟨x, k, v, -, -, hk, e⟩ <;> rw [e]
  · exact ⟨hfits, hstatus⟩
  · exact ⟨Block.fits_reset _, Block.statusLegal_reset⟩
  · exact ⟨hfits, hstatus⟩
  · exact ⟨hfits, Block.statusLegal_acceptCommand _ v⟩
  · exact ⟨hfits, hstatus.writeStatus v⟩
  · exact ⟨hfits, hstatus⟩
  · have hword := replaceWord_lt v (Block.fits_iff.1 hfits x) (Params.word_le_opw hk)
    exact ⟨hfits.set x hword, hstatus.set x _⟩

theorem engineStep_keeps_inv {s t : State} (hi : s.Inv) (h : engineStep s = .next t) : t.Inv := by
  obtain ⟨hlegal, hfits, hstatus⟩ := hi
  cases hb : s.blk.busy with
  | false => cases (engineStep_idle hb).symm.trans h; exact ⟨hlegal, hfits, hstatus⟩
  | true =>
    have hfits' : t.blk.Fits s.params.opw := by
      cases hd : decode s.blk.cmd with
      | ok i => exact exec_fits hfits ((engineStep_exec hb hd).symm.trans h)
      | error e => cases (engineStep_illegal hb hd).symm.trans h; exact hfits
    obtain ⟨r, g, c, hc⟩ := engineStep_busy hb
    cases hc.symm.trans h
    exact ⟨hlegal, hfits', Block.statusLegal_commit _ c⟩

theorem hardwareReset_inv {s : State} (h : s.params.Legal) : (hardwareReset s).Inv :=
  ⟨h, Block.fits_reset _, Block.statusLegal_reset⟩

theorem resetFor_inv {p : Params} (h : p.Legal) : (State.resetFor p).Inv :=
  ⟨h, Block.fits_reset _, Block.statusLegal_reset⟩

/-! What a command reads (10_state.md section 4). -/

/-- The block without IRQ_EN, DONE and OVERRUN, which no command reads. -/
def Block.inputs (b : Block) : Block := { b with irqEn := false, done := false, overrun := false }

theorem Block.operands_eq_of_inputs_eq {b c : Block} (h : b.inputs = c.inputs) :
    b.A = c.A ∧ b.B = c.B ∧ b.E = c.E ∧ b.N = c.N ∧ b.cmd = c.cmd := by
  simp only [Block.inputs, Block.mk.injEq] at h
  simp [h]

/-- All that a completion depends on: s without the flags that no command reads, the host agent, the turns and the
draws. -/
def State.inputs (s : State) : State := (State.resetFor s.params).withBlk s.blk.inputs

/-- R, G and ERRCODE after an answered move. -/
def Result.results : Result → Option (Nat × Nat × Fin 16)
  | .next t => some (t.blk.R, t.blk.G, t.blk.errcode)
  | _       => none

/-- A command's results are those it has on what it reads: each branch's condition and values are of the inputs. -/
theorem exec_inputs (i : Instr) (s : State) : Result.results (exec i s.inputs) = Result.results (exec i s) := by
  cases i
  case nop | gcd | bitlen => rfl
  case modmul => simp only [exec, execModmul, apply_ite Result.results]; rfl
  case montmul => simp only [exec, execMontmul, apply_ite Result.results]; rfl
  case tomont => simp only [exec, execTomont, apply_ite Result.results]; rfl
  case frommont => simp only [exec, execFrommont, apply_ite Result.results]; rfl
  case modexp => simp only [exec, execModexp, apply_ite Result.results]; rfl
  case modinv => simp only [exec, execModinv, apply_ite Result.results]; rfl

theorem engineStep_inputs {s : State} (hb : s.blk.busy = true) :
    Result.results (engineStep s.inputs) = Result.results (engineStep s) := by
  have hb' : s.inputs.blk.busy = true := hb
  cases hd : decode s.blk.cmd with
  | ok i => rw [engineStep_exec hb hd, engineStep_exec hb' hd, exec_inputs]
  | error e => rw [engineStep_illegal hb hd, engineStep_illegal hb' hd]; rfl

/-- While BUSY stays 1 the host can change the flags, and nothing that a command reads (10_state.md R22, R28). -/
theorem hostStep_keeps_inputs {s t : State} (h : hostStep s = .next t) (hs : s.blk.busy = true)
    (ht : t.blk.busy = true) : t.blk.inputs = s.blk.inputs := by
  rcases hostStep_blk h with e | e | ⟨q, e⟩ | ⟨v, hidle, -⟩ | ⟨v, e⟩ | ⟨-, e, -⟩ | ⟨x, k, v, hidle, -⟩
  · rw [e]
  · simp [e, Block.reset] at ht
  · rw [e]; rfl
  · simp [hs] at hidle
  · rw [e]; rfl
  · rw [e]; rfl
  · simp [hs] at hidle

/-- A step after which BUSY is still 1 is the host's. -/
theorem step_keeps_inputs {s t : State} (h : step s = .next t) (hs : s.blk.busy = true) (ht : t.blk.busy = true) :
    t.inputs = s.inputs := by
  rw [State.inputs, State.inputs, step_params h]
  obtain ⟨-, ⟨-, hh⟩ | ⟨-, he⟩ | ⟨-, rfl⟩⟩ := step_next h
  · rw [hostStep_keeps_inputs hh hs ht, State.popTurn_blk]
  · obtain ⟨r, g, c, hc⟩ := engineStep_busy (s := s.popTurn) hs
    cases hc.symm.trans he
    exact absurd ht Bool.false_ne_true
  · exact absurd ht Bool.false_ne_true

/-- Along a run of steps with BUSY = 1 throughout, the inputs stay as they are. -/
theorem run_keeps_inputs {n : Nat} {f : Nat → State} (hstep : ∀ j, j < n → step (f j) = .next (f (j + 1)))
    (hbusy : ∀ j, j ≤ n → (f j).blk.busy = true) : ∀ j, j ≤ n → (f j).inputs = (f 0).inputs
  | 0, _ => rfl
  | j + 1, hj =>
    (step_keeps_inputs (hstep j hj) (hbusy j (by omega)) (hbusy _ hj)).trans
      (run_keeps_inputs hstep hbusy j (by omega))

end Sys2Proof.Machine

namespace Sys2Proof.Proofs
open Sys2Proof.Machine

/-- Settles O43: by the agent that moves. -/
theorem everyStepKeepsTheInvariant : Obligations.EveryStepKeepsTheInvariant := by
  intro s t hi h
  have hpop : s.popTurn.Inv := hi
  obtain ⟨hlegal, -⟩ := hi
  obtain ⟨-, ⟨-, hh⟩ | ⟨-, he⟩ | ⟨-, rfl⟩⟩ := step_next h
  · exact hostStep_keeps_inv hpop hh
  · exact engineStep_keeps_inv hpop he
  · exact hardwareReset_inv hlegal

/-- Settles O46: the run keeps the inputs, and the results of a completion are a function of them. -/
theorem resultIsFixedAtAcceptance : Obligations.ResultIsFixedAtAcceptance := by
  intro n f hstep hbusy
  have hin : (f n).inputs = (f 0).inputs := run_keeps_inputs hstep hbusy n le_rfl
  have hres : Result.results (engineStep (f n)) = Result.results (engineStep (f 0)) := by
    rw [← engineStep_inputs (hbusy n le_rfl), hin, engineStep_inputs (hbusy 0 (Nat.zero_le n))]
  obtain ⟨_, _, _, ht⟩ := engineStep_busy (hbusy n le_rfl)
  obtain ⟨_, _, _, hu⟩ := engineStep_busy (hbusy 0 (Nat.zero_le n))
  rw [ht, hu] at hres
  obtain ⟨hA, hB, hE, hN, hcmd⟩ := Block.operands_eq_of_inputs_eq (congrArg State.blk hin)
  simp only [Result.results, Option.some.injEq, Prod.mk.injEq] at hres
  exact ⟨hA, hB, hE, hN, hcmd, _, _, ht, hu, hres⟩

/-- Settles O42: the reset values are within every bound, and those of State.reset's parameters are legal. -/
theorem resetMeetsTheInvariant : Obligations.ResetMeetsTheInvariant :=
  ⟨fun _ hp => ⟨resetFor_inv hp, rfl⟩, resetFor_inv (by decide), rfl⟩

end Sys2Proof.Proofs

/-! PROOFS. The register window (20_memory.md R60 to R70): where an offset leads, aligned or not, each branch of the read of
an operand's word, what a read of the window depends on, and from them the statements of O23, O30, O32, O33 and O34. -/

namespace Sys2Proof.Machine

/-! Where an offset leads (20_memory.md R60). -/

theorem eq_of_locate_status {off : Nat} (h : locate off = .status) : off = 0x010 := by
  unfold locate at h
  split_ifs at h with h0 h1 h2 h3 h4
  · exact h4
  · split at h <;> cases h

/-- Only the offsets of X's own window lead to X. -/
theorem win_le_of_locate_operand {off k : Nat} {x : Operand} (h : locate off = .operand x k) :
    win x ≤ off ∧ off < win x + 0x400 := by
  unfold locate at h
  split_ifs at h
  split at h <;> cases h <;> simp only [win] <;> omega

theorem locate_reserved {off : Nat} (ha : off % 4 = 0)
    (hr : (0x014 ≤ off ∧ off < 0x400) ∨ (0x1C00 ≤ off ∧ off < 0x2000)) : locate off = .reserved := by
  have h := locate_inv ha
  cases hl : locate off with
  | reserved => rfl
  | operand x k =>
    obtain ⟨hlo, hhi⟩ := win_le_of_locate_operand hl
    cases x <;> simp only [win] at hlo hhi <;> omega
  | id | param | ctrl | cmd | status => simp only [hl] at h; omega

/-- The windows of R and G are the ones that the host may not write (10_state.md R21, 20_memory.md R63). -/
theorem hostWritable_of_locate {off k : Nat} {x : Operand} (h : locate off = .operand x k)
    (hoff : ¬(0x1400 ≤ off ∧ off < 0x1C00)) : x.hostWritable = true := by
  obtain ⟨hlo, hhi⟩ := win_le_of_locate_operand h
  rw [← Bool.not_eq_false, Operand.hostWritable_eq_false_iff]
  rintro (rfl | rfl) <;> simp only [win] at hlo hhi <;> omega

/-! The branches of the read of an operand's word (10_state.md R23). -/

theorem Block.readOperand_beyond {b : Block} {nw k : Nat} (x : Operand) (hk : nw ≤ k) :
    b.readOperand nw x k = some 0#32 :=
  if_pos hk

theorem Block.readOperand_within {b : Block} {nw k : Nat} {x : Operand} (hk : k < nw)
    (h : x.hostWritable = true ∨ b.busy = false) : b.readOperand nw x k = some (wordOf (b.get x) k) := by
  rcases h with h | h <;> simp [Block.readOperand, Nat.not_le.2 hk, h]

theorem Block.readOperand_congr {b c : Block} {nw k : Nat} {x : Operand}
    (h : x.hostWritable = true ∨ c.busy = b.busy) (hw : wordOf (c.get x) k = wordOf (b.get x) k) :
    c.readOperand nw x k = b.readOperand nw x k := by
  rcases h with h | h <;> simp [Block.readOperand, h, hw]

/-! The reads of the window (20_memory.md R64, R70). -/

@[simp] theorem Block.windowRead_operand (b : Block) (nw : Nat) (x : Operand) {k : Nat} (hk : k < 256) :
    b.windowRead nw (win x + 4 * k) = b.readOperand nw x k := by
  simp [Block.windowRead, hk]

theorem Block.windowRead_reserved (b : Block) (nw : Nat) {off : Nat} (h : locate off = .reserved) :
    b.windowRead nw off = some 0#32 := by
  simp [Block.windowRead, h]

theorem Block.windowWrite_reserved (b : Block) (nw : Nat) {off : Nat} (v : Word) (h : locate off = .reserved) :
    b.windowWrite nw off v = b := by
  simp [Block.windowWrite, h]

/-- Only R and G read unspecified values, and only while BUSY = 1 (10_state.md R23). -/
theorem Block.busy_of_windowRead_eq_none {b : Block} {nw off : Nat} (h : b.windowRead nw off = none) :
    b.busy = true ∧ 0x1400 ≤ off ∧ off < 0x1C00 := by
  unfold Block.windowRead at h
  cases hl : locate off with
  | operand x k =>
    rw [hl] at h
    obtain ⟨-, hx, hb⟩ := Block.readOperand_eq_none.1 h
    refine ⟨hb, ?_⟩
    by_contra hoff
    exact absurd (hostWritable_of_locate hl hoff) (by simp [hx])
  | id | param | ctrl | cmd | status | reserved => simp [hl] at h

/-- What a read of the window depends on: IRQ_EN, CMD, and the status word or the operand's word if it reads that. -/
theorem Block.windowRead_congr {b c : Block} {nw off : Nat} (hirq : c.irqEn = b.irqEn) (hcmd : c.cmd = b.cmd)
    (hstatus : locate off = .status → c.statusWord = b.statusWord)
    (hoperand : ∀ x k, locate off = .operand x k → c.readOperand nw x k = b.readOperand nw x k) :
    c.windowRead nw off = b.windowRead nw off := by
  unfold Block.windowRead
  cases hl : locate off with
  | id | param | reserved => rfl
  | ctrl => simp only [Block.ctrlWord, hirq]
  | cmd => simp only [hcmd]
  | status => simp only [hstatus hl]
  | operand x k => exact hoperand x k hl

@[simp] theorem Block.statusWord_set (b : Block) (x : Operand) (v : Nat) : (b.set x v).statusWord = b.statusWord := by
  simp [Block.statusWord, Block.err]

/-- A completion shows in STATUS and in the windows of R and G only (60_exceptions.md R204). -/
theorem Block.windowRead_completed (b : Block) (r g : Nat) (c : ErrCode) (nw : Nat) {off : Nat} (hst : off ≠ 0x010)
    (hoff : ¬(0x1400 ≤ off ∧ off < 0x1C00)) :
    (((b.set .r r).set .g g).commit c).windowRead nw off = b.windowRead nw off := by
  refine Block.windowRead_congr rfl rfl (fun hl => absurd (eq_of_locate_status hl) hst) fun x k hl => ?_
  have hx := hostWritable_of_locate hl hoff
  refine Block.readOperand_congr (.inl hx) ?_
  cases x with
  | a | b | e | n => rfl
  | r | g => cases hx

/-- A word replaced in X shows at its own offset only (20_memory.md R66). -/
theorem Block.windowRead_set_replaceWord (b : Block) (x : Operand) (k : Nat) (v : Word) (nw : Nat) {off : Nat}
    (ha : off % 4 = 0) (hne : off ≠ win x + 4 * k) :
    (b.set x (replaceWord (b.get x) k v)).windowRead nw off = b.windowRead nw off := by
  refine Block.windowRead_congr (by simp) (by simp) (fun _ => by simp) fun y l hl => ?_
  refine Block.readOperand_congr (.inr (by simp)) ?_
  by_cases hy : y = x
  · subst hy
    have h := locate_inv ha
    simp only [hl] at h
    obtain ⟨-, rfl⟩ := h
    have hlk : l ≠ k := fun e => hne (by rw [e])
    rw [Block.get_set_self, wordOf_replaceWord_ne _ _ hlk]
  · rw [Block.get_set_ne b x y _ hy]

/-- The write of a word of A, B, E or N that is accepted (10_state.md R22). -/
theorem memWrite_operand_within {s : State} {x : Operand} {k : Nat} (v : Word) (hx : x.hostWritable = true)
    (hb : s.blk.busy = false) (hk : k < s.params.nw) (hk' : k < 256) :
    memWrite s (win x + 4 * k) v = s.withBlk (s.blk.set x (replaceWord (s.blk.get x) k v)) := by
  rw [memWrite_operand s x v hk', Block.writeOperand_within v hx hb hk]

/-- The read of a word of a register that is specified (10_state.md R23). -/
theorem memRead_operand_within {s : State} {x : Operand} {k : Nat} (h : x.hostWritable = true ∨ s.blk.busy = false)
    (hk : k < s.params.nw) (hk' : k < 256) : memRead s (win x + 4 * k) = (wordOf (s.blk.get x) k, s) :=
  memRead_of_some ((s.blk.windowRead_operand _ x hk').trans (Block.readOperand_within hk h))

end Sys2Proof.Machine

namespace Sys2Proof.Proofs
open Sys2Proof.Machine

/-- Settles O23: every command is a write of R, of G and of three STATUS fields. -/
theorem commandFrame : Obligations.CommandFrame := by
  intro i s t h
  obtain ⟨r, g, c, hc, hR, hG⟩ := exec_next i s
  cases hc.symm.trans h
  refine ⟨rfl, rfl, rfl, rfl, rfl, rfl, rfl, rfl, rfl, rfl, rfl, fun he => hR (he.imp_left ?_), hG, fun off hst hoff =>
    s.blk.windowRead_completed r g c _ hst hoff⟩
  rintro he rfl
  exact he rfl

/-- Settles O30, a clause for each branch of the read. -/
theorem operandReadReturnsOneWord : Obligations.OperandReadReturnsOneWord := by
  intro s x k hk
  refine ⟨fun hn => ?beyond, fun hn hx hb => ?unspecified, fun hn h => ⟨wordOf (s.blk.get x) k, fun j hj => ?bits, ?word⟩⟩
  case beyond => exact memRead_of_some (by rw [Block.windowRead_operand _ _ _ hk, Block.readOperand_beyond x hn])
  case unspecified =>
    refine memRead_of_none ((Block.windowRead_operand _ _ _ hk).trans (Block.readOperand_eq_none.2 ⟨hn, ?_, hb⟩))
    exact Operand.hostWritable_eq_false_iff.2 hx
  case bits => rw [getLsbD_wordOf, decide_eq_true hj, Bool.true_and]
  case word => exact memRead_operand_within (h.imp_left fun ⟨hr, hg⟩ => Operand.hostWritable_of_ne hr hg) hn hk

/-- Settles O32: both ranges lead to no register. -/
theorem reservedOffsetsReadZeroIgnoreWrites : Obligations.ReservedOffsetsReadZeroIgnoreWrites := by
  intro s off v ha hr
  have hl := locate_reserved ha hr
  refine ⟨memRead_of_some (Block.windowRead_reserved _ _ hl), ?_⟩
  rw [memWrite, Block.windowWrite_reserved _ _ v hl, State.withBlk_blk_self]

/-- Settles O33: only an unspecified value is drawn. -/
theorem readsHaveNoSideEffect : Obligations.ReadsHaveNoSideEffect := by
  intro s off
  cases hw : s.blk.windowRead s.params.nw off with
  | some v => exact .inl (by rw [memRead_of_some hw])
  | none =>
    obtain ⟨hb, hlo, hhi⟩ := Block.busy_of_windowRead_eq_none hw
    exact .inr ⟨hb, hlo, hhi, by rw [memRead_of_none hw]; rfl⟩

/-- Settles O34: the write replaces one word of X. -/
theorem operandWordWrittenIsReadBack : Obligations.OperandWordWrittenIsReadBack := by
  intro s x k off v hr hg hn hk hb ha
  have hx := Operand.hostWritable_of_ne hr hg
  rw [memWrite_operand_within v hx hb hn hk]
  refine ⟨?_, s.blk.windowRead_set_replaceWord x k v _ ha⟩
  have h := memRead_operand_within (s := s.withBlk (s.blk.set x (replaceWord (s.blk.get x) k v))) (.inl hx) hn hk
  rwa [State.withBlk_blk, Block.get_set_self, wordOf_replaceWord_self] at h

end Sys2Proof.Proofs

/-! PROOFS. The step (20_memory.md R73; 60_exceptions.md sections 1 and 2): whose turn it is, how a step can stop, what
raises DONE and OVERRUN and what changes R and G, and from them the statements of O2, O8, O9, O10, O22, O26, O27, O44 and
O45. -/

namespace Sys2Proof.Machine

/-! Whose turn it is (log entry 3). -/

section
variable {s : State}

theorem agentToMove_cons {a : Turn} {ts : List Turn} (h : s.turns = a :: ts) : agentToMove s = a := by
  simp [agentToMove, h]

theorem agentToMove_nil_busy (h : s.turns = []) (hb : s.blk.busy = true) : agentToMove s = .engine := by
  simp [agentToMove, h, hb]

theorem popTurn_of_cons {a : Turn} {ts : List Turn} (h : s.turns = a :: ts) : s.popTurn = { s with turns := ts } := by
  simp [State.popTurn, h]

end

/-! How a step can stop. -/

/-- A state with a reserved ERRCODE is a fault (93_implementation_defined.md I5). -/
theorem step_of_reserved {s : State} (h : 5 < s.blk.errcode.val) : step s = .fault .reservedErrcode :=
  if_pos h

theorem accessProblem_eq_some {p : Params} {addr width : Nat} {r : Refusal} (h : accessProblem p addr width = some r) :
    r = .undefinedAccess ∨ r = .outsideWindow := by
  unfold accessProblem at h
  split_ifs at h <;> cases h
  · exact .inr rfl
  · exact .inl rfl

theorem busAccess_error {s : State} {q : Request} {r : Refusal} (h : busAccess s q = .error r) :
    r = .undefinedAccess ∨ r = .outsideWindow := by
  cases q with
  | read addr width | write addr width v =>
    simp only [busAccess] at h
    split at h
    · cases h; exact accessProblem_eq_some ‹_›
    · cases h

/-- The host's step never faults, and is refused only where its access is. -/
theorem hostStep_stops (s : State) :
    (∃ t, hostStep s = .next t) ∨
    ∃ r, hostStep s = .refused r ∧ s.host.script ≠ [] ∧ (r = .undefinedAccess ∨ r = .outsideWindow) := by
  unfold hostStep
  split
  · exact .inl ⟨_, rfl⟩
  · rename_i hs
    split
    · exact .inr ⟨_, rfl, by simp [hs], busAccess_error ‹_›⟩
    · exact .inl ⟨_, rfl⟩

theorem engineStep_answers (s : State) : ∃ t, engineStep s = .next t := by
  cases hb : s.blk.busy with
  | false => exact ⟨s, engineStep_idle hb⟩
  | true =>
    obtain ⟨r, g, c, hc⟩ := engineStep_busy hb
    exact ⟨_, hc⟩

/-- With a producible ERRCODE a step is answered, or is an access of the host that is refused. -/
theorem step_stops {s : State} (he : s.blk.errcode.val ≤ 5) :
    (∃ t, step s = .next t) ∨
    ∃ r, step s = .refused r ∧ agentToMove s = .host ∧ s.host.script ≠ [] ∧
      (r = .undefinedAccess ∨ r = .outsideWindow) := by
  cases ha : agentToMove s with
  | host =>
    rw [step_host he ha]
    exact (hostStep_stops s.popTurn).imp_right fun ⟨r, hr, hs, hcause⟩ => ⟨r, hr, rfl, hs, hcause⟩
  | engine =>
    rw [step_engine he ha]
    exact .inl (engineStep_answers _)
  | reset => exact .inl ⟨_, step_reset he ha⟩

/-! What a step can do to the block, by the agent that moves. -/

/-- Every answered step is a move of the host, a completion, a reset, or leaves the block alone. -/
theorem step_blk {s t : State} (h : step s = .next t) :
    (agentToMove s = .host ∧ hostStep s.popTurn = .next t) ∨
    (agentToMove s = .engine ∧ s.blk.busy = true ∧
      ∃ r g c, t.blk = ((s.blk.set .r r).set .g g).commit c) ∨
    t.blk = s.blk ∨ t.blk = Block.reset := by
  obtain ⟨-, hh | ⟨ha, he⟩ | ⟨-, rfl⟩⟩ := step_next h
  · exact .inl hh
  · cases hb : s.blk.busy with
    | false => cases (engineStep_idle (s := s.popTurn) hb).symm.trans he; exact .inr (.inr (.inl rfl))
    | true =>
      obtain ⟨r, g, c, hc⟩ := engineStep_busy (s := s.popTurn) hb
      cases hc.symm.trans he
      exact .inr (.inl ⟨ha, rfl, r, g, c, rfl⟩)
  · exact .inr (.inr (.inr rfl))

/-- The host does not raise DONE. -/
theorem hostStep_not_done {s t : State} (h : hostStep s = .next t) (hd : s.blk.done = false) : t.blk.done = false := by
  rcases hostStep_blk h with e | e | ⟨q, e⟩ | ⟨v, -, e⟩ | ⟨v, e⟩ | ⟨-, e, -⟩ | ⟨x, k, v, -, -, -, e⟩ <;> rw [e]
  · exact hd
  · rfl
  · exact hd
  · rfl
  · rw [Block.writeStatus_done, hd, Bool.false_and]
  · exact hd
  · rw [Block.set_done, hd]

/-- The host raises OVERRUN by a dropped write only (60_exceptions.md R205). -/
theorem hostStep_overrun {s t : State} (h : hostStep s = .next t) (ho : s.blk.overrun = false)
    (ht : t.blk.overrun = true) :
    s.blk.busy = true ∧ t.blk = s.blk.dropWrite ∧
    ∃ st rest off v, s.host.script = st :: rest ∧ st.request s.params = .write (s.params.base + off) 32 v ∧
      (off = 0x00C ∨ (0x0400 ≤ off ∧ off < 0x1400)) := by
  rcases hostStep_blk h with e | e | ⟨q, e⟩ | ⟨v, -, e⟩ | ⟨v, e⟩ | hdrop | ⟨x, k, v, -, -, -, e⟩
  · simp [e, ho] at ht
  · simp [e, Block.reset] at ht
  · simp [e, ho] at ht
  · simp [e, ho] at ht
  · simp [e, ho] at ht
  · exact hdrop
  · simp [e, ho] at ht

/-- The host leaves R and G alone but for a soft reset (10_state.md R21). -/
theorem hostStep_results {s t : State} (h : hostStep s = .next t) :
    (t.blk.R = s.blk.R ∧ t.blk.G = s.blk.G) ∨ t.blk = Block.reset := by
  rcases hostStep_blk h with e | e | ⟨q, e⟩ | ⟨v, -, e⟩ | ⟨v, e⟩ | ⟨-, e, -⟩ | ⟨x, k, v, -, hx, -, e⟩
  · exact .inl (by simp [e])
  · exact .inr e
  · exact .inl (by simp [e])
  · exact .inl (by simp [e])
  · exact .inl (by simp [e])
  · exact .inl (by simp [e])
  · rw [e]
    cases x with
    | a | b | e | n => exact .inl ⟨rfl, rfl⟩
    | r | g => cases hx

end Sys2Proof.Machine

namespace Sys2Proof.Proofs
open Sys2Proof.Machine

/-- Settles O22: the engine's step is a completion, whatever word is in flight. -/
theorem everyCommandInFlightCompletes : Obligations.EveryCommandInFlightCompletes := by
  intro s ha hb he
  obtain ⟨r, g, c, hc⟩ := engineStep_busy (s := s.popTurn) hb
  exact ⟨_, (step_engine he ha).trans hc, rfl, rfl, c.code_le⟩

/-- Settles O26: the host's writes and a reset can only clear DONE. -/
theorem onlyCompletionSetsDone : Obligations.OnlyCompletionSetsDone := by
  intro s t h hs ht
  rcases step_blk h with ⟨-, hh⟩ | ⟨ha, hb, -⟩ | e | e
  · simp [hostStep_not_done hh hs] at ht
  · exact ⟨hb, ha⟩
  · simp [e, hs] at ht
  · simp [e, Block.reset] at ht

/-- Settles O27: a completion leaves OVERRUN, a reset clears it, and the host sets it by a dropped write only. -/
theorem onlyDroppedWriteSetsOverrun : Obligations.OnlyDroppedWriteSetsOverrun := by
  intro s t h hs ht
  rcases step_blk h with ⟨ha, hh⟩ | ⟨-, -, r, g, c, e⟩ | e | e
  · obtain ⟨hb, hblk, st, rest, off, v, hscript, hreq, hoff⟩ := hostStep_overrun hh hs ht
    refine ⟨hb, ha, hblk, st, rest, s.params.base + off, v, hscript, hreq, ?_⟩
    omega
  · simp [e, hs] at ht
  · simp [e, hs] at ht
  · simp [e, Block.reset] at ht

/-- Settles O44: the fault is the first test of a step, and past it only the host's access can stop the machine. -/
theorem stopsAreReservedCodesAndHostAccesses : Obligations.StopsAreReservedCodesAndHostAccesses := by
  intro s
  have fault_iff : ∀ f, step s = .fault f ↔ f = .reservedErrcode ∧ 5 < s.blk.errcode.val := by
    intro f
    rcases Nat.lt_or_ge 5 s.blk.errcode.val with he | he
    · simp [step_of_reserved he, he]
    · rcases step_stops he with ⟨t, ht⟩ | ⟨r, hr, -⟩
      · simp [ht, he]
      · simp [hr, he]
  refine ⟨fault_iff, fun ⟨_, _, hcode, _⟩ f hf => ?invariant, fun r hr => ?refusal⟩
  case invariant => exact absurd ((fault_iff f).1 hf).2 (Nat.not_lt.2 hcode)
  case refusal =>
    rcases Nat.lt_or_ge 5 s.blk.errcode.val with he | he
    · cases (step_of_reserved he).symm.trans hr
    · rcases step_stops he with ⟨t, ht⟩ | ⟨r', hr', hcause⟩
      · cases ht.symm.trans hr
      · cases hr'.symm.trans hr
        exact hcause

/-- Settles O45: the host writes neither R nor G but for a soft reset. -/
theorem resultsChangeOnlyByCompletionOrReset : Obligations.ResultsChangeOnlyByCompletionOrReset := by
  intro s t h
  rcases step_blk h with ⟨-, hh⟩ | ⟨ha, hb, -⟩ | e | e
  · exact (hostStep_results hh).imp_right .inr
  · exact .inr (.inl ⟨hb, ha⟩)
  · exact .inl (by simp [e])
  · exact .inr (.inr e)

/-- Settles O2: the reset clears BUSY with the rest, so the engine has nothing left to complete. -/
theorem hardwareResetClearsTheBlock : Obligations.HardwareResetClearsTheBlock := by
  intro s ts hts he
  refine ⟨_, step_reset he (agentToMove_cons hts), ?_, engineStep_idle rfl⟩
  rw [popTurn_of_cons hts]
  rfl

/-- Settles O8: on the engine's turn the step is the engine's. -/
theorem stepRunsTheLatchedCommand : Obligations.StepRunsTheLatchedCommand := by
  intro s i ha hb he hd
  have h : step s = exec i s.popTurn := (step_engine he ha).trans (engineStep_exec hb hd)
  exact ⟨h, fun hts => by rw [h, s.popTurn_of_nil hts]⟩

/-- Settles O9, a clause for each turn listed and for each default. -/
theorem stepIsTheMovingAgentsStep : Obligations.StepIsTheMovingAgentsStep := by
  intro s he
  have engine : ∀ ts, s.turns = .engine :: ts → step s = engineStep { s with turns := ts } := fun ts hts => by
    rw [step_engine he (agentToMove_cons hts), popTurn_of_cons hts]
  refine ⟨fun ts hts => ?host, engine, fun ts hts hb => (engine ts hts).trans (engineStep_idle hb),
    fun hts hb => ?inFlight, fun hts hb => ?idle⟩
  case host => rw [step_host he (agentToMove_cons hts), popTurn_of_cons hts]
  case inFlight => rw [step_engine he (agentToMove_nil_busy hts hb), s.popTurn_of_nil hts]
  case idle => rw [step_host he (agentToMove_nil_idle hts hb), s.popTurn_of_nil hts]

/-- Settles O10: the two ways of being illegal are the decoder's two errors. -/
theorem illegalWordCompletesWithCodeOne : Obligations.IllegalWordCompletesWithCodeOne := by
  intro s ha hb he hw
  obtain ⟨e, hd⟩ : ∃ e, decode s.blk.cmd = .error e := by
    rwa [decode_eq_error_iff, ne_eq, rsvdField_eq_zero_iff, opField_toNat]
  exact (step_engine he ha).trans (engineStep_illegal (s := s.popTurn) hb hd)

end Sys2Proof.Proofs

/-! PROOFS. The reference datapaths (41_modmul.md R126, 42_modexp.md R151, 43_gcd_inverse.md R171): the loop invariant of the
radix-2 datapath, its value as MONTMUL's, and from them the statements of O50 to O52. -/

namespace Sys2Proof.Machine

section
variable {a b m : Nat} (hm : m % 2 = 1) (hb : b < m)
include hm hb

theorem montAcc_lt (n : Nat) : montAcc a b m n < 2 * m := by
  induction n with
  | zero => exact Nat.mul_pos two_pos (pos_of_mod_two_eq_one hm)
  | succ n ih => exact (montRound_spec hm hb ih).1

/-- After n rounds the accumulator, scaled by 2^n, is the product of b with the low n bits of a, modulo m. -/
theorem two_pow_mul_montAcc_modEq (n : Nat) : 2 ^ n * montAcc a b m n ≡ a % 2 ^ n * b [MOD m] := by
  induction n with
  | zero => simp [montAcc, Nat.mod_one, Nat.ModEq]
  | succ n ih =>
    have hround : 2 * montAcc a b m (n + 1) ≡ montAcc a b m n + (if a.testBit n then b else 0) [MOD m] :=
      (montRound_spec hm hb (montAcc_lt hm hb n)).2
    calc 2 ^ (n + 1) * montAcc a b m (n + 1)
        = 2 ^ n * (2 * montAcc a b m (n + 1)) := by ring
      _ ≡ 2 ^ n * (montAcc a b m n + (if a.testBit n then b else 0)) [MOD m] := hround.mul_left _
      _ = 2 ^ n * montAcc a b m n + 2 ^ n * (if a.testBit n then b else 0) := mul_add _ _ _
      _ ≡ a % 2 ^ n * b + 2 ^ n * (if a.testBit n then b else 0) [MOD m] := ih.add_right _
      _ = a % 2 ^ (n + 1) * b := by
        rw [mod_two_pow_succ_testBit]
        split <;> ring

end

/-- One conditional subtraction reduces a value below 2m. -/
theorem reduceOnce_eq_mod {m t : Nat} (ht : t < 2 * m) : reduceOnce m t = t % m := by
  unfold reduceOnce
  split
  · rename_i hle
    rw [Nat.mod_eq_sub_mod hle, Nat.mod_eq_of_lt (by omega)]
  · rename_i hlt
    rw [Nat.mod_eq_of_lt (Nat.lt_of_not_le hlt)]

/-- The radix-2 datapath computes the Montgomery product (41_modmul.md R126): taking the radix off both sides of the loop's
invariant. -/
theorem montMulR2_eq_montMul {w a b m : Nat} (hm : m % 2 = 1) (hb : b < m) (ha : a < 2 ^ w) :
    montMulR2 w a b m = montMul w a b m := by
  rw [montMulR2, reduceOnce_eq_mod (montAcc_lt hm hb w)]
  change montAcc a b m w ≡ a * b * inv (2 ^ w % m) m [MOD m]
  calc montAcc a b m w
      = 1 * montAcc a b m w := (one_mul _).symm
    _ ≡ 2 ^ w * inv (2 ^ w % m) m * montAcc a b m w [MOD m] := (radix_mul_inv_modEq_one hm w).symm.mul_right _
    _ = 2 ^ w * montAcc a b m w * inv (2 ^ w % m) m := by ring
    _ ≡ a % 2 ^ w * b * inv (2 ^ w % m) m [MOD m] := (two_pow_mul_montAcc_modEq hm hb w).mul_right _
    _ = a * b * inv (2 ^ w % m) m := by rw [Nat.mod_eq_of_lt ha]

end Sys2Proof.Machine

namespace Sys2Proof.Proofs
open Sys2Proof.Machine Sys2Proof.Claims

/-- Settles O50: A is below N and so below 2^OPW, and the loop reads every bit of it. -/
theorem radixTwoDatapathComputesMontmul : Obligations.RadixTwoDatapathComputesMontmul := by
  intro s h2 hA hB hN
  refine ⟨fun j _ => montAcc_lt h2 hB j, ?_⟩
  rw [resultOn_montmul h2 hA hB, montMulR2_eq_montMul h2 hB (hA.trans hN)]

/-- Settles O51: the loop's value is the one MODEXP's rule rests on. -/
theorem squareAndMultiplyComputesThePower : Obligations.SquareAndMultiplyComputesThePower :=
  fun a k _ hm => powMod_eq a k hm

/-- Settles O52: the fuel of the loop is enough, and its coefficient is normalised. -/
theorem extendedEuclidComputesGcdAndCoefficient : Obligations.ExtendedEuclidComputesGcdAndCoefficient := by
  intro a m hm
  obtain ⟨hgcd, hcoef⟩ := xgcdInv_spec a hm
  exact ⟨hgcd, xgcdInv_lt a hm, hcoef⟩

end Sys2Proof.Proofs

/-! PROOFS. The statements of one access (30_encoding.md R86, R87; 20_memory.md R68): the host's step on a write, on a read
and on an access that is refused, and from them the statements of O35 to O38. -/

namespace Sys2Proof.Machine

/-! The host's step, by the access of its next statement. -/

section
variable {s : State} {st : Stmt} {rest : List Stmt} (hs : s.host.script = st :: rest)
include hs

theorem hostStep_write {off : Nat} {v : Word} (hq : st.request s.params = .write (s.params.base + off) 32 v)
    (ho : off < 0x2000) (ha : off % 4 = 0) :
    hostStep s = .next ((memWrite s off v).withHost (st.resume s.params.nw 0#32 (s.host.withScript rest))) := by
  simp [hostStep, hs, hq, ho, ha]

theorem hostStep_read {off : Nat} (hq : st.request s.params = .read (s.params.base + off) 32)
    (ho : off < 0x2000) (ha : off % 4 = 0) :
    hostStep s = .next ((memRead s off).2.withHost
      (st.resume s.params.nw (memRead s off).1 (s.host.withScript rest))) := by
  simp [hostStep, hs, hq, ho, ha]

theorem hostStep_refused {addr width : Nat} {r : Refusal}
    (hq : st.request s.params = .read addr width ∨ ∃ v, st.request s.params = .write addr width v)
    (hp : accessProblem s.params addr width = some r) : hostStep s = .refused r := by
  rcases hq with hq | ⟨v, hq⟩ <;> simp [hostStep, hs, hq, busAccess, hp]

end

/-! The two problems of an access (20_memory.md R68, 93_implementation_defined.md I10). -/

theorem accessProblem_undefined {p : Params} {addr width : Nat} (hlo : p.base ≤ addr) (hhi : addr < p.base + 0x2000)
    (h : width ≠ 32 ∨ (addr - p.base) % 4 ≠ 0) : accessProblem p addr width = some .undefinedAccess := by
  rw [accessProblem, if_neg (by omega), if_pos h]

theorem accessProblem_outside {p : Params} {addr : Nat} (width : Nat) (h : addr < p.base ∨ p.base + 0x2000 ≤ addr) :
    accessProblem p addr width = some .outsideWindow :=
  if_pos h

/-- A read depends on no turn. -/
theorem memRead_popTurn (s : State) (off : Nat) :
    memRead s.popTurn off = ((memRead s off).1, (memRead s off).2.popTurn) := by
  cases h : s.blk.windowRead s.params.nw off with
  | some v => rw [memRead_of_some h, memRead_of_some (s := s.popTurn) h]
  | none => rw [memRead_of_none h, memRead_of_none (s := s.popTurn) h]; rfl

/-! What WAIT and WAITOK make of the STATUS word (30_encoding.md R87). -/

theorem Block.statusWord_getLsbD_zero (b : Block) : b.statusWord.getLsbD 0 = b.busy := b.statusWord_bit0

/-- ERRCODE reads 0 in STATUS exactly if it is 0. -/
theorem Block.statusWord_errcode_eq_zero_iff (b : Block) : b.statusWord.extractLsb' 8 4 = 0#4 ↔ b.errcode = 0 := by
  rw [← BitVec.toNat_inj, Block.statusWord_errcode, BitVec.toNat_zero, Fin.ext_iff]
  rfl

/-- A statement that goes on stands first in the script again. -/
theorem HostAgent.push_withScript {h : HostAgent} {st : Stmt} {rest : List Stmt} (hs : h.script = st :: rest) :
    (h.withScript rest).push st = h := by
  simp [HostAgent.push, HostAgent.withScript, ← hs]

theorem HostAgent.bind_push (h : HostAgent) (name : Name) (v : Nat) (st : Stmt) :
    (h.bind name v).push st = (h.push st).bind name v := rfl

section
variable {b : Block} (nw : Nat) (h : HostAgent)

theorem Stmt.resume_wait : Stmt.resume nw b.statusWord h .wait =
    if b.busy then (h.bind .s b.statusWord.toNat).push .wait else h.bind .s b.statusWord.toNat := by
  rw [← b.statusWord_getLsbD_zero]
  rfl

theorem Stmt.resume_waitok_of_busy (hb : b.busy = true) :
    Stmt.resume nw b.statusWord h .waitok = (h.bind .s b.statusWord.toNat).push .waitok :=
  if_pos (b.statusWord_getLsbD_zero.trans hb)

theorem Stmt.resume_waitok_of_idle (hb : b.busy = false) : Stmt.resume nw b.statusWord h .waitok =
    if b.errcode = 0 then h.bind .s b.statusWord.toNat else (h.bind .s b.statusWord.toNat).abort := by
  simp only [Stmt.resume, b.statusWord_getLsbD_zero, hb, b.statusWord_errcode_eq_zero_iff, Bool.false_eq_true, if_false]

end

end Sys2Proof.Machine

namespace Sys2Proof.Proofs
open Sys2Proof.Machine

/-- Settles O35: the access is in the window and has the other problem. -/
theorem undefinedAccessIsRefused : Obligations.UndefinedAccessIsRefused := by
  intro s st rest hturn he hs
  have refused : ∀ addr width,
      (st.request s.params = .read addr width ∨ ∃ v, st.request s.params = .write addr width v) →
      s.params.base ≤ addr → addr < s.params.base + 0x2000 → (width ≠ 32 ∨ (addr - s.params.base) % 4 ≠ 0) →
      step s = .refused .undefinedAccess := fun addr width hq hlo hhi h =>
    (step_host he hturn).trans (hostStep_refused (s := s.popTurn) hs hq (accessProblem_undefined hlo hhi h))
  refine ⟨refused, fun off v hst ho ha => ?wr, fun off name hst ho ha => ?rd⟩
  case wr => exact refused (s.params.base + off) 32 (.inr ⟨v, by rw [hst]; rfl⟩) (by omega) (by omega) (by omega)
  case rd => exact refused (s.params.base + off) 32 (.inl (by rw [hst]; rfl)) (by omega) (by omega) (by omega)

/-- Settles O36: outside the window neither width nor alignment matters. -/
theorem accessOutsideTheWindowIsRefused : Obligations.AccessOutsideTheWindowIsRefused := by
  intro s st rest hturn he hs
  have refused : ∀ addr width,
      (st.request s.params = .read addr width ∨ ∃ v, st.request s.params = .write addr width v) →
      (addr < s.params.base ∨ s.params.base + 0x2000 ≤ addr) → step s = .refused .outsideWindow :=
    fun addr width hq h =>
      (step_host he hturn).trans (hostStep_refused (s := s.popTurn) hs hq (accessProblem_outside width h))
  refine ⟨refused, fun off v hst ho => ?wr, fun off name hst ho => ?rd⟩
  case wr => exact refused (s.params.base + off) 32 (.inr ⟨v, by rw [hst]; rfl⟩) (by omega)
  case rd => exact refused (s.params.base + off) 32 (.inl (by rw [hst]; rfl)) (by omega)

/-- Settles O37: each of the statements makes one defined write and leaves the host nothing more to do. -/
theorem hostWriteStatementsWriteTheWindow : Obligations.HostWriteStatementsWriteTheWindow := by
  intro s st rest off v hturn he hs hst
  obtain ⟨ho, ha, hq, hres⟩ : off < 0x2000 ∧ off % 4 = 0 ∧
      st.request s.params = .write (s.params.base + off) 32 v ∧ ∀ h, st.resume s.params.nw 0#32 h = h := by
    rcases hst with ⟨rfl, ha, ho⟩ | ⟨rfl, ha, ho⟩ | ⟨i, rfl, rfl, rfl⟩ | ⟨rfl, rfl, rfl⟩ | ⟨rfl, rfl, rfl⟩ |
      ⟨rfl, rfl, rfl⟩ | ⟨rfl, rfl, rfl⟩ | ⟨rfl, rfl, rfl⟩
    · exact ⟨ho, ha, rfl, fun _ => rfl⟩
    · exact ⟨ho, ha, rfl, fun _ => rfl⟩
    all_goals exact ⟨by decide, by decide, rfl, fun _ => rfl⟩
  rw [step_host he hturn, hostStep_write (s := s.popTurn) hs hq ho ha, State.popTurn_params, hres]
  rfl

/-- Settles O38: RD and a bus read are one read; WAIT and WAITOK look at BUSY and ERRCODE in the STATUS word read. -/
theorem hostReadStatementsReadTheWindow : Obligations.HostReadStatementsReadTheWindow := by
  intro s rest hturn he
  have read : ∀ st off, s.host.script = st :: rest → st.request s.params = .read (s.params.base + off) 32 →
      off < 0x2000 → off % 4 = 0 → step s = .next ((memRead s off).2.popTurn.withHost
        (st.resume s.params.nw (memRead s off).1 (s.host.withScript rest))) := fun st off hs hq ho ha => by
    rw [step_host he hturn, hostStep_read (s := s.popTurn) hs hq ho ha, memRead_popTurn]
    rfl
  have status : ∀ st, s.host.script = st :: rest → st.request s.params = .read (s.params.base + 0x010) 32 →
      step s = .next (s.popTurn.withHost (st.resume s.params.nw s.blk.statusWord (s.host.withScript rest))) :=
    fun st hs hq => by rw [read st _ hs hq (by decide) (by decide), memRead_status]
  refine ⟨fun off name hs ha ho => ?rd, fun hs => ?wait, fun hs hb => ?again, fun hs hb hc => ?ok,
    fun hs hb hc => ?failed⟩
  case rd =>
    rcases hs with hs | hs <;> rw [read _ off hs rfl ho ha, ← memRead_turns s off] <;> rfl
  case wait =>
    rw [status _ hs rfl, Stmt.resume_wait, memRead_status]
    cases s.blk.busy <;> rfl
  case again =>
    rw [status _ hs rfl, Stmt.resume_waitok_of_busy _ _ hb, HostAgent.bind_push, HostAgent.push_withScript hs,
      memRead_status]
    rfl
  case ok =>
    rw [status _ hs rfl, Stmt.resume_waitok_of_idle _ _ hb, if_pos hc, memRead_status]
    rfl
  case failed =>
    rw [status _ hs rfl, Stmt.resume_waitok_of_idle _ _ hb, if_neg hc, memRead_status]
    rfl

end Sys2Proof.Proofs

/-! PROOFS. The statements of several accesses (30_encoding.md R87): LOAD's loop of writes, the loop of reads that READ and
MOV share, the state after k rounds of each, and from them the statements of O39 to O41. -/

namespace Sys2Proof.Machine
open Sys2Proof.Claims

/-! Loops of the machine. -/

/-- A sequence of states each of which steps to the next is a run. -/
theorem runSteps_of_step {n : Nat} {g : Nat → State} (h : ∀ k, k < n → step (g k) = .next (g (k + 1))) :
    runSteps n (g 0) = .next (g n) := by
  induction n with
  | zero => rfl
  | succ n ih =>
    rw [runSteps_add n 1 (ih fun k hk => h k (Nat.lt_succ_of_lt hk)), runSteps_succ 0 (h n (Nat.lt_succ_self n)),
      runSteps_zero]

/-- Every word of an operand's window is at a defined offset. -/
theorem win_add_defined (x : Operand) {k : Nat} (hk : k < 256) :
    win x + 4 * k < 0x2000 ∧ (win x + 4 * k) % 4 = 0 := by
  cases x <;> simp only [win] <;> omega

/-! The register that LOAD has come to word k of (30_encoding.md R81, R87). -/

/-- old with its k lowest words replaced by those of v. -/
def withLowWords (old v k : Nat) : Nat := v % 2 ^ (32 * k) + 2 ^ (32 * k) * (old / 2 ^ (32 * k))

theorem withLowWords_zero (old v : Nat) : withLowWords old v 0 = old := by
  simp [withLowWords, Nat.mod_one]

theorem withLowWords_full {old v n : Nat} (ho : old < 2 ^ (32 * n)) (hv : v < 2 ^ (32 * n)) :
    withLowWords old v n = v := by
  rw [withLowWords, Nat.mod_eq_of_lt hv, Nat.div_eq_of_lt ho, Nat.mul_zero, Nat.add_zero]

theorem testBit_withLowWords (old v k j : Nat) :
    (withLowWords old v k).testBit j = if j < 32 * k then v.testBit j else old.testBit j := by
  rw [withLowWords, Nat.add_comm, Nat.testBit_two_pow_mul_add _ (Nat.mod_lt _ (Nat.two_pow_pos _))]
  by_cases h : j < 32 * k
  · simp [h, Nat.testBit_mod_two_pow]
  · rw [if_neg h, if_neg h, Nat.testBit_div_two_pow, Nat.sub_add_cancel (Nat.le_of_not_lt h)]

/-- Writing word k of v is one more of its words. -/
theorem replaceWord_withLowWords (old v k : Nat) :
    replaceWord (withLowWords old v k) k (wordOf v k) = withLowWords old v (k + 1) := by
  apply Nat.eq_of_testBit_eq
  intro j
  rw [testBit_replaceWord, testBit_withLowWords, testBit_withLowWords, getLsbD_wordOf]
  by_cases hlo : j < 32 * k
  · rw [if_neg (by omega), if_pos hlo, if_pos (by omega)]
  by_cases hhi : j < 32 * k + 32
  · rw [if_pos (by omega), if_pos (by omega), decide_eq_true (by omega), Bool.true_and]
    congr 1
    omega
  · rw [if_neg (by omega), if_neg hlo, if_neg (by omega)]

/-- The names bound by k + 1 reads: the last one first. -/
theorem wordBindings_succ (k v : Nat) : wordBindings (k + 1) v = (.w k, (wordOf v k).toNat) :: wordBindings k v := by
  rw [toNat_wordOf]
  simp [wordBindings, List.range_succ]

/-- The value put together from k + 1 reads (30_encoding.md R81). -/
theorem lowWords_add_wordOf (v k : Nat) :
    v % 2 ^ (32 * k) + (wordOf v k).toNat * 2 ^ (32 * k) = v % 2 ^ (32 * (k + 1)) := by
  rw [toNat_wordOf, lowWords_add_word]

/-! The states of the loops, and their steps. -/

/-- s after k writes of LOAD x, v, whose statement goes on while words are left. -/
def State.loading (s : State) (x : Operand) (v : Nat) (rest : List Stmt) (k : Nat) : State :=
  (s.withBlk (s.blk.set x (withLowWords (s.blk.get x) v k))).withHost
    (s.host.withScript (if k < s.params.nw then .load x v k :: rest else rest))

theorem Stmt.resume_load (nw : Nat) (w : Word) (h : HostAgent) (x : Operand) (v k : Nat) :
    Stmt.resume nw w h (.load x v k) =
      h.withScript (if k + 1 < nw then .load x v (k + 1) :: h.script else h.script) := by
  simp only [Stmt.resume]
  split <;> rfl

/-- The host after k reads of a register that holds v, with the rest of its script to do. -/
def HostAgent.withWords (h : HostAgent) (v : Nat) (rest : List Stmt) (k : Nat) : HostAgent :=
  { h with script := rest, vars := wordBindings k v ++ h.vars }

theorem HostAgent.withWords_zero (h : HostAgent) (v : Nat) (rest : List Stmt) :
    h.withWords v rest 0 = h.withScript rest := rfl

theorem HostAgent.withWords_bind (h : HostAgent) (v : Nat) (rest : List Stmt) (k : Nat) :
    (h.withWords v rest k).bind (.w k) (wordOf v k).toNat = h.withWords v rest (k + 1) := by
  simp [HostAgent.bind, HostAgent.withWords, wordBindings_succ]

/-- s after k reads of x, with a statement next that goes on from word k. -/
def State.reading (s : State) (x : Operand) (st : Nat → Nat → Stmt) (rest : List Stmt) (k : Nat) : State :=
  s.withHost ((s.host.withWords (s.blk.get x) rest k).push (st k (s.blk.get x % 2 ^ (32 * k))))

/-- With no turn listed and no command in flight a step is the host's. -/
theorem step_idle {s : State} (hc : s.blk.errcode.val ≤ 5) (ht : s.turns = []) (hb : s.blk.busy = false) :
    step s = hostStep s := by
  rw [step_host hc (agentToMove_nil_idle ht hb), s.popTurn_of_nil ht]

section
variable {s : State} (hi : s.Inv) (ht : s.turns = []) (hb : s.blk.busy = false)
include hi ht hb

theorem step_loading {x : Operand} (hx : x.hostWritable = true) (v : Nat) (rest : List Stmt) {k : Nat}
    (hk : k < s.params.nw) : step (s.loading x v rest k) = .next (s.loading x v rest (k + 1)) := by
  obtain ⟨⟨-, hnw, -⟩, -, hc, -⟩ := hi
  have hk' : k < 256 := lt_of_lt_of_le hk hnw
  obtain ⟨ho, ha⟩ := win_add_defined x hk'
  have hb' : (s.loading x v rest k).blk.busy = false := by simpa [State.loading] using hb
  have hs : (s.loading x v rest k).host.script = .load x v k :: rest := if_pos hk
  rw [step_idle (s := s.loading x v rest k) (by simpa [State.loading] using hc) ht hb', hostStep_write hs rfl ho ha,
    memWrite_operand_within _ hx hb' hk hk']
  simp only [State.loading, State.withHost_blk, State.withBlk_blk, Block.get_set_self, Block.set_set,
    replaceWord_withLowWords, Stmt.resume_load]
  rfl

/-- LOAD takes an access for each word. -/
theorem runSteps_load {x : Operand} (hx : x.hostWritable = true) {v : Nat} (hv : v < 2 ^ s.params.opw)
    {rest : List Stmt} (hs : s.host.script = .load x v 0 :: rest) :
    runSteps s.params.nw s = .next ((s.withBlk (s.blk.set x v)).withHost (s.host.withScript rest)) := by
  have ⟨⟨hpos, _⟩, hfits, _⟩ := hi
  have first : s.loading x v rest 0 = s := by
    rw [State.loading, withLowWords_zero, Block.set_get, State.withBlk_blk_self, if_pos (Nat.lt_of_succ_le hpos), ← hs]
    rfl
  have last : s.loading x v rest s.params.nw = (s.withBlk (s.blk.set x v)).withHost (s.host.withScript rest) := by
    rw [State.loading, withLowWords_full (Block.fits_iff.1 hfits x) hv, if_neg (lt_irrefl _)]
  have run := runSteps_of_step (n := s.params.nw) (g := s.loading x v rest) fun k hk => step_loading hi ht hb hx v rest hk
  rwa [first, last] at run

theorem step_reading {x : Operand} {st : Nat → Nat → Stmt} (rest : List Stmt) {k : Nat} (hk : k < s.params.nw)
    (hreq : ∀ k acc, (st k acc).request s.params = .read (s.params.base + (win x + 4 * k)) 32) :
    step (s.reading x st rest k) = .next (s.withHost ((st k (s.blk.get x % 2 ^ (32 * k))).resume s.params.nw
      (wordOf (s.blk.get x) k) (s.host.withWords (s.blk.get x) rest k))) := by
  obtain ⟨⟨-, hnw, -⟩, -, hc, -⟩ := hi
  have hk' : k < 256 := lt_of_lt_of_le hk hnw
  obtain ⟨ho, ha⟩ := win_add_defined x hk'
  rw [step_idle (s := s.reading x st rest k) hc ht hb, hostStep_read (s := s.reading x st rest k) rfl (hreq _ _) ho ha,
    memRead_operand_within (s := s.reading x st rest k) (.inr hb) hk hk']
  rfl

/-- READ and MOV take a read for each word: every statement that goes on as they do, and makes `done` of the host and the
value when no word is left. -/
theorem runSteps_reading {x : Operand} {st : Nat → Nat → Stmt} {done : HostAgent → Nat → HostAgent} {rest : List Stmt}
    (hs : s.host.script = st 0 0 :: rest)
    (hreq : ∀ k acc, (st k acc).request s.params = .read (s.params.base + (win x + 4 * k)) 32)
    (hres : ∀ k acc w h, (st k acc).resume s.params.nw w h =
      if k + 1 < s.params.nw then (h.bind (.w k) w.toNat).push (st (k + 1) (acc + w.toNat * 2 ^ (32 * k)))
      else done (h.bind (.w k) w.toNat) (acc + w.toNat * 2 ^ (32 * k))) :
    runSteps s.params.nw s =
      .next (s.withHost (done (s.host.withWords (s.blk.get x) rest s.params.nw) (s.blk.get x))) := by
  have ⟨⟨hpos, _⟩, hfits, _⟩ := hi
  obtain ⟨m, hm⟩ : ∃ m, s.params.nw = m + 1 := Nat.exists_eq_add_of_le' hpos
  have step_word : ∀ k, k < s.params.nw → step (s.reading x st rest k) = .next (s.withHost
      (if k + 1 < s.params.nw then
        (s.host.withWords (s.blk.get x) rest (k + 1)).push (st (k + 1) (s.blk.get x % 2 ^ (32 * (k + 1))))
      else done (s.host.withWords (s.blk.get x) rest (k + 1)) (s.blk.get x % 2 ^ (32 * (k + 1))))) := fun k hk => by
    rw [step_reading hi ht hb rest hk hreq, hres, HostAgent.withWords_bind, lowWords_add_wordOf]
  have first : s.reading x st rest 0 = s := by
    rw [State.reading, HostAgent.withWords_zero, Nat.mul_zero, pow_zero, Nat.mod_one, HostAgent.push_withScript hs,
      State.withHost_host_self]
  have next : ∀ k, k < m → step (s.reading x st rest k) = .next (s.reading x st rest (k + 1)) := fun k hk => by
    rw [step_word k (by omega), if_pos (by omega)]
    rfl
  have whole : s.blk.get x % 2 ^ (32 * s.params.nw) = s.blk.get x := Nat.mod_eq_of_lt (Block.fits_iff.1 hfits x)
  have last := step_word m (by omega)
  rw [if_neg (by omega), ← hm, whole] at last
  have run := runSteps_of_step next
  rw [first] at run
  rw [← last, hm, runSteps_add m 1 run, runSteps_succ 0 last, runSteps_zero, last]

end

end Sys2Proof.Machine

namespace Sys2Proof.Proofs
open Sys2Proof.Machine Sys2Proof.Claims

/-- Settles O39: after as many writes as words every word of X is v's. -/
theorem loadPutsTheValueInTheRegister : Obligations.LoadPutsTheValueInTheRegister :=
  fun _ _ _ _ hi ht hb hr hg hv hs => runSteps_load hi ht hb (Operand.hostWritable_of_ne hr hg) hv hs

/-- Settles O40: when no word is left READ binds its own name to the value. -/
theorem readReturnsTheRegister : Obligations.ReadReturnsTheRegister :=
  fun _ _ name _ hi ht hb hs => runSteps_reading (st := .read _ name) (done := fun h v => h.bind name v) hi ht hb hs
    (fun _ _ => rfl) fun _ _ _ _ => rfl

/-- Settles O41: when no word is left MOV binds t and becomes a LOAD of the value, from a state where only the host has
changed. -/
theorem movCopiesTheRegister : Obligations.MovCopiesTheRegister := by
  intro s x y rest hi ht hb hr hg hs
  have reads := runSteps_reading (st := .mov x y) (done := fun h v => (h.bind .t v).push (.load x v 0)) hi ht hb hs
    (fun _ _ => rfl) fun _ _ _ _ => rfl
  have ⟨_, hfits, _⟩ := hi
  rw [two_mul, runSteps_add _ _ reads]
  exact runSteps_load (s := s.withHost (((s.host.withWords (s.blk.get y) rest s.params.nw).bind .t (s.blk.get y)).push
    (.load x (s.blk.get y) 0))) hi ht hb (Operand.hostWritable_of_ne hr hg) (Block.fits_iff.1 hfits y) rfl

end Sys2Proof.Proofs
